-- ==== Sys2Proof/Word.lean ====
section
/-!
DEFINITION. The two word types of the block: a stream byte or row-buffer cell (00_scope R8: "every stream byte and
row-buffer cell holds 0..255") and a register word (R8: "register width ... 32 bits"). Their arithmetic is that of `BitVec`.
-/

namespace Sys2Proof

/-- One byte of a stream, or the content of one row-buffer cell (R8, R54). -/
abbrev Byte := BitVec 8

/-- One register word; bit 0 is its least significant bit (R10, R48). -/
abbrev Word := BitVec 32

end Sys2Proof
end

