-- ==== Sys2Proof/Config.lean ====
section
/-!
DEFINITION. What an instance of the block fixes. MAX_ROW_BYTES is the block's only build-time parameter (00_scope R8,
92_eei_decisions D6, 93 I2). The machine reads it from `State.maxRowBytes`, which no step changes, so that a statement about
every state holds for every value of it; the number below is only what `State.reset` starts with.
-/

namespace Sys2Proof

/-- DESIGN CHOICE (log entry 1): the MAX_ROW_BYTES of the instance that `State.reset` describes. R8 leaves it open in
1 .. 2^32-1; 65536 is the value the spec's own tables use (95_test_vectors 2.8). No statement rests on it. -/
def Config.resetMaxRowBytes : Nat := 65536

end Sys2Proof
end

