-- ==== Sys2Proof/Machine/State.lean ====
section
/-!
DEFINITION. The state. `Block` holds exactly the items of 10_state R15. `HostSide` and `State.maxRowBytes` hold what R15 says a
model takes as arguments beside the state: the host's streams and actions, and the build-time parameter MAX_ROW_BYTES. All of it
is plain data.
-/

namespace Sys2Proof.Machine

/-- STATE (R19). Values 5, 6 and 7 are never produced, so they are not representable (93 I8; log entry 13). -/
inductive SessionState where
  /-- 0: no session. -/
  | idle
  /-- 1: the next input byte is the filter-type byte of row r. -/
  | filter
  /-- 2: the next input byte is data byte i of row r. -/
  | data
  /-- 3: the session ended after HEIGHT rows. -/
  | done
  /-- 4: the session ended with an error. -/
  | error
  deriving DecidableEq, Repr

/-- ERR_CODE (R18, R119). Values 4 to 15 are never produced, so they are not representable (93 I8; log entry 13). -/
inductive ErrCode where
  /-- 0 -/
  | noError
  /-- 1 -/
  | truncatedScanlines
  /-- 2 -/
  | unknownFilterType
  /-- 3 -/
  | configError
  deriving DecidableEq, Repr

/-- A row buffer: its cells that hold a value, as (index, byte), indexes strictly rising. An index that is not listed holds no
value (R35). -/
abbrev RowBuf := List Host.Cell

/-- The canonical form of a row buffer. -/
abbrev RowBuf.wf (b : RowBuf) : Prop := b.Pairwise (fun p q => p.1 < q.1)

/-- The block's state: the items of R15. -/
structure Block where
  /-- CTRL.IRQ_EN (R17). -/
  irqEn : Bool
  /-- STATE (R19). -/
  state : SessionState
  /-- ERR_CODE (R18). -/
  errCode : ErrCode
  /-- WIDTH (R20). -/
  width : Word
  /-- HEIGHT (R21). -/
  height : Word
  /-- BPP (R22). -/
  bpp : BitVec 3
  /-- INLEN (R23). -/
  inlen : BitVec 64
  /-- ERR_INFO (R24). -/
  errInfo : Word
  /-- ERR_ROW (R24). -/
  errRow : Word
  /-- ROW, the row r of the position counter (R25). -/
  posRow : Word
  /-- BYTE, the byte index i of the position counter (R25). -/
  posByte : Word
  /-- FT_CUR (R26). -/
  ftCur : BitVec 3
  /-- OUT_COUNT (R27). -/
  outCount : BitVec 64
  /-- PREV, the previous row (R31). -/
  prev : RowBuf
  /-- CUR, the current row (R32). -/
  cur : RowBuf
  deriving DecidableEq, Repr

/-- What the host does next (R13, R151; log entry 2). -/
inductive HostEvent where
  /-- The host does nothing: the block takes its stream step if one is enabled, and holds otherwise (R100). -/
  | run
  /-- The host changes what it offers on IN and whether it accepts on OUT (R49, R50). -/
  | lines (offering accepting : Bool)
  /-- `MemRead(off, bits / 8)` (R46, R47). -/
  | read (bits off : Nat)
  /-- `MemWrite(off, bits / 8, v)` (R46, R47). -/
  | write (bits off : Nat) (v : Word)
  /-- The reset input is asserted (R137). -/
  | reset
  deriving DecidableEq, Repr

/-- The host's side of the ports (R45, R49, R50, R105; log entry 2). -/
structure HostSide where
  /-- What the host does next, oldest first. When it is empty, the host does nothing more. -/
  sched : List HostEvent
  /-- The host's input stream from the next byte on. A byte not consumed stays here (R49). -/
  input : List Byte
  /-- The host offers the head of `input`, if there is one. -/
  offering : Bool
  /-- The host accepts an OUT byte. -/
  accepting : Bool
  /-- The bytes OutWrite has delivered, oldest first (R50). -/
  output : List Byte
  /-- The words register reads have returned, oldest first (R105; log entry 14). -/
  readData : List Word
  deriving DecidableEq, Repr

/-- The machine: the build-time parameter, the block, and the host's side of its ports. -/
structure State where
  /-- MAX_ROW_BYTES (R8): how many cells each row buffer has. No step changes it (log entry 1). -/
  maxRowBytes : Nat
  blk : Block
  host : HostSide
  deriving DecidableEq, Repr

/-- Why the model stops where no rule of the spec gives a next state. None of these is the block's ERROR state (R130). -/
inductive Fault where
  /-- A read of a row-buffer cell that holds no value (R35, 93 I1). Raised by the operand mux and the row commit. Safe: the
  model stops where a part reads some byte; unreachable in a run (R82). -/
  | absentCell
  /-- An access to a row-buffer index of MAX_ROW_BYTES or more, a cell that does not exist (R31, R32). Raised by the operand mux,
  the write of CUR and the row commit. Safe: unreachable in a run (R25; log entry 6). -/
  | cellOutOfRange
  /-- STATE is DATA and FT_CUR holds 5, 6 or 7, which no filter step latches (R68, R94). Raised by the data step's fetch. Safe:
  unreachable in a run (log entry 7). -/
  | latchedFilterCode
  deriving DecidableEq, Repr

/-- What the model refuses: a host action the spec gives no meaning. -/
inductive Refusal where
  /-- An instruction with no meaning yet, by its mnemonic. Raised by a refused arm of `exec` only. Safe. -/
  | notModelled (mnemonic : String)
  /-- A register access of a width other than 32 bits (R47, 93 I5). Raised by a register read or write. Safe. -/
  | accessWidth
  /-- A register access at an offset that is not a multiple of 4 (R47, 93 I5). Raised by a register read or write. Safe. -/
  | accessAlignment
  /-- A register access at an offset of 0x40 or more, which does not address the block (R56, 93 I6). Raised by a register read
  or write. Safe. -/
  | accessOutsideBlock
  deriving DecidableEq, Repr

/-- R37: every register 0, STATE IDLE, no row-buffer cell with a value. -/
def Block.reset : Block where
  irqEn := false
  state := .idle
  errCode := .noError
  width := 0#32
  height := 0#32
  bpp := 0#3
  inlen := 0#64
  errInfo := 0#32
  errRow := 0#32
  posRow := 0#32
  posByte := 0#32
  ftCur := 0#3
  outCount := 0#64
  prev := []
  cur := []

/-- DESIGN CHOICE (log entry 2): the host before it has done anything. It has no byte to offer and nothing planned; its lines
follow the convention of the spec's listings, offering at once and accepting at once (R71). -/
def HostSide.reset : HostSide where
  sched := []
  input := []
  offering := true
  accepting := true
  output := []
  readData := []

/-- The machine right after reset (R37, R137), with a host that has done nothing yet. -/
def State.reset : State where
  maxRowBytes := Config.resetMaxRowBytes
  blk := Block.reset
  host := HostSide.reset

end Sys2Proof.Machine
end

