-- ==== Sys2Proof/Machine/Ops.lean ====
section
/-!
DEFINITION. The named operations over the row buffers, the registers and the ports, and error entry (60_exceptions R124), the one
shared operation by which the block takes an error.
-/

namespace Sys2Proof.Machine

/-! ## Row buffers -/

/-- The value cell `j` holds, if it holds one (R35). -/
def cellAt : RowBuf → Nat → Option Byte
  | [], _ => none
  | (k, v) :: rest, j => if k = j then some v else cellAt rest j

/-- The buffer with `v` in cell `j`. -/
def setCell : RowBuf → Nat → Byte → RowBuf
  | [], j, v => [(j, v)]
  | (k, w) :: rest, j, v =>
    if j < k then (j, v) :: (k, w) :: rest
    else if j = k then (j, v) :: rest
    else (k, w) :: setCell rest j v

/-- Read cell `j` of a buffer of `cap` cells: a cell outside the buffer does not exist, and a cell with no value faults (R35). -/
def readCell (cap : Nat) (b : RowBuf) (j : Nat) : Except Fault Byte :=
  if j < cap then
    match cellAt b j with
    | some v => .ok v
    | none => .error .absentCell
  else .error .cellOutOfRange

/-- Write cell `j` of a buffer of `cap` cells. -/
def writeCell (cap : Nat) (b : RowBuf) (j : Nat) (v : Byte) : Except Fault RowBuf :=
  if j < cap then .ok (setCell b j v) else .error .cellOutOfRange

/-- `for j in 0 .. n - 1: PREV[j] <- CUR[j]`, the copy of the row commit (R97). -/
def copyCells (cap : Nat) (cur : RowBuf) : Nat → RowBuf → Except Fault RowBuf
  | 0, prev => .ok prev
  | n + 1, prev =>
    match copyCells cap cur n prev with
    | .error f => .error f
    | .ok p =>
      match readCell cap cur n with
      | .error f => .error f
      | .ok v => writeCell cap p n v

/-! ## Derived quantities (R28), exact -/

/-- ROW_BYTES = WIDTH × BPP. -/
def Block.rowBytes (b : Block) : Nat := b.width.toNat * b.bpp.toNat

/-- NEEDED = HEIGHT × (1 + ROW_BYTES). -/
def Block.needed (b : Block) : Nat := b.height.toNat * (1 + b.rowBytes)

/-- OUT_TOTAL = HEIGHT × ROW_BYTES. -/
def Block.outTotal (b : Block) : Nat := b.height.toNat * b.rowBytes

/-! ## Encodings of the fields of STATUS -/

/-- The 3-bit encoding of STATE (R19). -/
def SessionState.code : SessionState → BitVec 3
  | .idle => 0#3
  | .filter => 1#3
  | .data => 2#3
  | .done => 3#3
  | .error => 4#3

/-- The 4-bit encoding of ERR_CODE (R18, R119). -/
def ErrCode.code : ErrCode → BitVec 4
  | .noError => 0#4
  | .truncatedScanlines => 1#4
  | .unknownFilterType => 2#4
  | .configError => 3#4

/-! ## Registers -/

/-- IRQ_EN written (R108). -/
def Block.setIrqEn (b : Block) (v : Bool) : Block := { b with irqEn := v }

/-- `raise Err(code, info)` (R124): STATE, ERR_CODE and ERR_INFO are written and nothing else changes. -/
def Block.raiseErr (b : Block) (code : ErrCode) (info : Word) : Block :=
  { b with state := .error, errCode := code, errInfo := info }

/-- ERR_ROW written, by the filter step before it raises UnknownFilterType (R95). -/
def Block.setErrRow (b : Block) (r : Word) : Block := { b with errRow := r }

/-- The error fields cleared, as START and CLEAR do (R109, R112). -/
def Block.clearErr (b : Block) : Block := { b with errCode := .noError, errInfo := 0#32, errRow := 0#32 }

/-- STATE written. -/
def Block.setState (b : Block) (st : SessionState) : Block := { b with state := st }

/-- The per-session registers an accepted START re-initialises beside the error fields, and CUR made unspecified (R109, R41). -/
def Block.clearSession (b : Block) : Block :=
  { b with posRow := 0#32, posByte := 0#32, ftCur := 0#3, outCount := 0#64, cur := [] }

/-- The filter step's effect for a legal code (R94): FT_CUR latched, STATE DATA. -/
def Block.latchFilter (b : Block) (code : BitVec 3) : Block := { b with ftCur := code, state := .data }

/-- `OUT_COUNT <- OUT_COUNT + 1` (R96). -/
def Block.countOutput (b : Block) : Block := { b with outCount := b.outCount + 1#64 }

/-- CUR replaced. -/
def Block.setCur (b : Block) (c : RowBuf) : Block := { b with cur := c }

/-- `i <- i + 1` (R96). -/
def Block.nextByte (b : Block) : Block := { b with posByte := b.posByte + 1#32 }

/-- The register effects of the row commit (R97, R98), PREV being the copied row `p`: CUR made unspecified, r advanced, i zero, and
STATE DONE after the last row, FILTER otherwise. -/
def Block.nextRow (b : Block) (p : RowBuf) : Block :=
  { b with
    prev := p
    cur := []
    posRow := b.posRow + 1#32
    posByte := 0#32
    state := if b.posRow + 1#32 = b.height then .done else .filter }

/-! ## Ports -/

/-- The machine with its block replaced. -/
def State.setBlk (s : State) (b : Block) : State := { s with blk := b }

/-- `InRead()`'s effect on the host: the offered byte is consumed, `rest` stays with the host (R49). -/
def State.setInput (s : State) (rest : List Byte) : State := { s with host := { s.host with input := rest } }

/-- `OutWrite(y)`: the byte is appended to the host's output sequence (R50). -/
def State.outWrite (s : State) (y : Byte) : State :=
  { s with host := { s.host with output := s.host.output ++ [y] } }

/-- A register read's value given to the host (R105). -/
def State.giveRead (s : State) (v : Word) : State :=
  { s with host := { s.host with readData := s.host.readData ++ [v] } }

/-- The host's plan from its next action on. -/
def State.setSched (s : State) (es : List HostEvent) : State := { s with host := { s.host with sched := es } }

/-- The host's lines (R49, R50). -/
def State.setLines (s : State) (offering accepting : Bool) : State :=
  { s with host := { s.host with offering := offering, accepting := accepting } }

end Sys2Proof.Machine
end

