-- ==== Sys2Proof/Machine/Flags.lean ====
section
/-!
DEFINITION. The flags the spec computes from the state (10_state R29, R30). None is stored, and no reconstruction writes one (R92).
-/

namespace Sys2Proof.Machine

/-- FIRST_ROW = (r == 0) (R29). -/
def Block.firstRow (b : Block) : Bool := b.posRow == 0#32

/-- LEFT_EDGE = (i < BPP), on the byte index (R29, R79). -/
def Block.leftEdge (b : Block) : Bool := decide (b.posByte.toNat < b.bpp.toNat)

/-- BUSY = (STATE == FILTER) or (STATE == DATA) (R30). -/
def Block.busy (b : Block) : Bool :=
  match b.state with
  | .filter | .data => true
  | .idle | .done | .error => false

/-- The level of the irq output, which STATUS.IRQ reads (R30, R128). -/
def Block.irq (b : Block) : Bool :=
  match b.state with
  | .done | .error => b.irqEn
  | .idle | .filter | .data => false

/-- The filter step is enabled: the host offers an IN byte (R100). -/
def State.inReady (s : State) : Bool := s.host.offering && !s.host.input.isEmpty

/-- The data step is enabled: the host offers an IN byte and accepts an OUT byte (R100). -/
def State.dataReady (s : State) : Bool := s.inReady && s.host.accepting

end Sys2Proof.Machine
end

