-- ==== Sys2Proof/Machine/Commands.lean ====
section
/-!
DEFINITION. The two commands of CTRL (43_host_commands R108 to R114). Every CTRL write sets IRQ_EN before the command bits act
(R108).
-/

namespace Sys2Proof.Machine

/-- The START checks in their order, the first that fails deciding (R109, R110, R120, R121): the error raised and its ERR_INFO, or
none for a legal configuration with enough input. Products and comparisons are exact. -/
def startCheck (cap : Nat) (k : Block) : Option (ErrCode × Word) :=
  if k.width = 0#32 then some (.configError, 1#32)
  else if k.height = 0#32 then some (.configError, 2#32)
  else if ¬ (k.bpp = 1#3 ∨ k.bpp = 3#3 ∨ k.bpp = 4#3) then some (.configError, 3#32)
  else if cap < k.rowBytes then some (.configError, 4#32)
  else if k.inlen.toNat < k.needed then some (.truncatedScanlines, 0#32)
  else none

/-- An accepted START (R109): the per-session registers re-initialised, then the checks, then FILTER or ERROR. -/
def Block.start (cap : Nat) (k : Block) : Block :=
  match startCheck cap k with
  | some (code, info) => k.clearErr.clearSession.raiseErr code info
  | none => k.clearErr.clearSession.setState .filter

/-- An accepted CLEAR (R112). -/
def Block.clear (k : Block) : Block := k.clearErr.setState .idle

/-- START: accepted when BUSY = 0 (R109), ignored but for IRQ_EN otherwise (R111). The ignored bits of the word have no effect
(R69, R114). -/
def execStart (irqEn : Bool) (_ignored : Word) (s : State) : Host.Outcome State Fault Refusal :=
  if s.blk.busy then .next (s.setBlk (s.blk.setIrqEn irqEn))
  else .next (s.setBlk ((s.blk.setIrqEn irqEn).start s.maxRowBytes))

/-- CLEAR: accepted when BUSY = 0 (R112), ignored but for IRQ_EN otherwise (R113). -/
def execClear (irqEn : Bool) (_ignored : Word) (s : State) : Host.Outcome State Fault Refusal :=
  if s.blk.busy then .next (s.setBlk (s.blk.setIrqEn irqEn))
  else .next (s.setBlk (s.blk.setIrqEn irqEn).clear)

end Sys2Proof.Machine
end

