-- ==== Sys2Proof/Machine/Operands.lean ====
section
/-!
DEFINITION. The operands of a reconstruction and the boundary-case mux (40_operands R75 to R82). One mux serves all five filters
(R81). `cap` is MAX_ROW_BYTES.
-/

namespace Sys2Proof.Machine

/-- The operands a, b and c of one data step (R75). x is the input byte. -/
structure Neighbours where
  a : Byte
  b : Byte
  c : Byte
  deriving DecidableEq, Repr

/-- The index one pixel to the left, i - BPP (R75). It is used only where i ≥ BPP. -/
def Block.leftIndex (k : Block) : Nat := k.posByte.toNat - k.bpp.toNat

/-- a: 0 at the left edge, else CUR[i - BPP] (R76, R78). -/
def operandA (cap : Nat) (k : Block) : Except Fault Byte :=
  if k.leftEdge then .ok 0#8 else readCell cap k.cur k.leftIndex

/-- b: 0 in the first row, else PREV[i] (R77, R78). -/
def operandB (cap : Nat) (k : Block) : Except Fault Byte :=
  if k.firstRow then .ok 0#8 else readCell cap k.prev k.posByte.toNat

/-- c: 0 at the left edge or in the first row, else PREV[i - BPP] (R76, R77, R78). -/
def operandC (cap : Nat) (k : Block) : Except Fault Byte :=
  if k.leftEdge || k.firstRow then .ok 0#8 else readCell cap k.prev k.leftIndex

/-- The mux, whatever FT_CUR holds (R81). -/
def neighbours (cap : Nat) (k : Block) : Except Fault Neighbours :=
  match operandA cap k with
  | .error f => .error f
  | .ok a =>
    match operandB cap k with
    | .error f => .error f
    | .ok b =>
      match operandC cap k with
      | .error f => .error f
      | .ok c => .ok ⟨a, b, c⟩

end Sys2Proof.Machine
end

