-- ==== Sys2Proof/Machine/Predictors.lean ====
section
/-!
DEFINITION. The five predictors and the common frame of reconstruction (41_filters R83 to R90). Arithmetic is exact on integers and
is reduced mod 256 only at the final sum (R11, R89).
-/

namespace Sys2Proof.Machine

/-- pred_0 = 0 (R84). -/
def predNone (_ : Neighbours) : Byte := 0#8

/-- pred_1 = a (R85). -/
def predSub (n : Neighbours) : Byte := n.a

/-- pred_2 = b (R86). -/
def predUp (n : Neighbours) : Byte := n.b

/-- pred_3 = floor((a + b) / 2), the sum not reduced (R87). -/
def predAverage (n : Neighbours) : Byte := BitVec.ofNat 8 ((n.a.toNat + n.b.toNat) / 2)

/-- p = a + b - c, an exact integer (R89, R90). -/
def paethP (n : Neighbours) : Int := (n.a.toNat : Int) + n.b.toNat - n.c.toNat

/-- The distance of a candidate from p (R90). -/
def paethDist (n : Neighbours) (v : Byte) : Nat := (paethP n - v.toNat).natAbs

/-- pred_4: the candidate of a, b, c closest to p, ties to a, then b, then c (R88, R90). -/
def predPaeth (n : Neighbours) : Byte :=
  if paethDist n n.a ≤ paethDist n n.b ∧ paethDist n n.a ≤ paethDist n n.c then n.a
  else if paethDist n n.b ≤ paethDist n n.c then n.b
  else n.c

/-- recon(f, x, a, b, c) = (x + pred_f(a, b, c)) mod 256 (R83). -/
def recon (pred : Neighbours → Byte) (x : Byte) (n : Neighbours) : Byte :=
  BitVec.ofNat 8 (x.toNat + (pred n).toNat)

end Sys2Proof.Machine
end

