-- ==== Sys2Proof/Machine/Sequencer.lean ====
section
/-!
DEFINITION. The row sequencer's shared steps (42_sequencer R94 to R100): the filter step of a legal code, the data step with a given
predictor, and the row commit. `cap` is MAX_ROW_BYTES.
-/

namespace Sys2Proof.Machine

/-- The row commit (R97): PREV[0 .. ROW_BYTES - 1] <- CUR[0 .. ROW_BYTES - 1], then the position and STATE. -/
def Block.commitRow (cap : Nat) (k : Block) : Except Fault Block :=
  match copyCells cap k.cur k.rowBytes k.prev with
  | .error f => .error f
  | .ok p => .ok (k.nextRow p)

/-- After CUR[i] is written and the byte counted: the next byte of the row, or the row commit after its last (R96). -/
def Block.advance (cap : Nat) (k : Block) : Except Fault Block :=
  if k.posByte.toNat + 1 < k.rowBytes then .ok k.nextByte else k.commitRow cap

/-- The data step on the block, for input byte `x` (R96): the new block and the byte delivered. Operands are read before anything
is written (R80). -/
def Block.dataStep (cap : Nat) (pred : Neighbours → Byte) (k : Block) (x : Byte) : Except Fault (Block × Byte) :=
  match neighbours cap k with
  | .error f => .error f
  | .ok n =>
    match writeCell cap k.cur k.posByte.toNat (recon pred x n) with
    | .error f => .error f
    | .ok cur' =>
      match (k.setCur cur').countOutput.advance cap with
      | .error f => .error f
      | .ok k' => .ok (k', recon pred x n)

/-- The data step at the ports (R96, R100): enabled when the host offers a byte and accepts one; otherwise it holds and no state
changes. -/
def dataStep (pred : Neighbours → Byte) (s : State) : Host.Outcome State Fault Refusal :=
  if s.dataReady then
    match s.host.input with
    | [] => .next s
    | x :: rest =>
      match s.blk.dataStep s.maxRowBytes pred x with
      | .error f => .fault f
      | .ok (k, y) => .next (((s.setBlk k).setInput rest).outWrite y)
  else .next s

/-- What the instruction of a row does in one step. In FILTER its code, already consumed by the fetch, is latched (R94). In DATA it
reconstructs one byte of its row (R96). In IDLE, DONE and ERROR no stream step exists and nothing changes (R98, R100). -/
def streamStep (code : BitVec 3) (pred : Neighbours → Byte) (s : State) : Host.Outcome State Fault Refusal :=
  match s.blk.state with
  | .filter => .next (s.setBlk (s.blk.latchFilter code))
  | .data => dataStep pred s
  | .idle | .done | .error => .next s

end Sys2Proof.Machine
end

