-- ==== Sys2Proof/Machine/Filters.lean ====
section
/-!
DEFINITION. The meanings of the five filter-type instructions (41_filters R84 to R88). The predictor is all in which they differ
(30_encoding R74).
-/

namespace Sys2Proof.Machine

/-- NONE (R84): y = x. -/
def execNone (s : State) : Host.Outcome State Fault Refusal := streamStep 0#3 predNone s

/-- SUB (R85): y = (x + a) mod 256. -/
def execSub (s : State) : Host.Outcome State Fault Refusal := streamStep 1#3 predSub s

/-- UP (R86): y = (x + b) mod 256. -/
def execUp (s : State) : Host.Outcome State Fault Refusal := streamStep 2#3 predUp s

/-- AVERAGE (R87): y = (x + floor((a + b) / 2)) mod 256. -/
def execAverage (s : State) : Host.Outcome State Fault Refusal := streamStep 3#3 predAverage s

/-- PAETH (R88): y = (x + paeth(a, b, c)) mod 256. -/
def execPaeth (s : State) : Host.Outcome State Fault Refusal := streamStep 4#3 predPaeth s

end Sys2Proof.Machine
end

