-- ==== Sys2Proof/Syntax.lean ====
section
/-!
DEFINITION. The instructions: one constructor for each row of spec/opcode_table.json. The first five are the filter-type bytes
of format FT8 (30_encoding R61, R64); the last two are the commands written to CTRL (R69).
-/

namespace Sys2Proof

/-- The block's instructions (R2, R73). -/
inductive Instr where
  /-- NONE, FT8 code 0x00 (R84). -/
  | filterNone
  /-- SUB, FT8 code 0x01 (R85). -/
  | filterSub
  /-- UP, FT8 code 0x02 (R86). -/
  | filterUp
  /-- AVERAGE, FT8 code 0x03 (R87). -/
  | filterAverage
  /-- PAETH, FT8 code 0x04 (R88). -/
  | filterPaeth
  /-- START: a CTRL word with bit 0 set (R109). `irqEn` is bit 2 of the word. `ignored` holds the word's other bits in their
  places, bit 1 and bits 31..3 (R69, R114; log entry 11). -/
  | start (irqEn : Bool) (ignored : Word)
  /-- CLEAR: a CTRL word with bit 1 set and bit 0 clear (R112). `irqEn` is bit 2 of the word. `ignored` holds bits 31..3 in
  their places (R69; log entry 11). -/
  | clear (irqEn : Bool) (ignored : Word)
  deriving DecidableEq, Repr

end Sys2Proof
end

