-- ==== Sys2Proof/Machine/Dispatch.lean ====
section
/-!
DEFINITION. One arm for each instruction.
-/

namespace Sys2Proof.Machine

def exec (i : Instr) (s : State) : Host.Outcome State Fault Refusal :=
  match i with
  | .filterNone => Sys2Proof.Machine.execNone s
  | .filterSub => Sys2Proof.Machine.execSub s
  | .filterUp => Sys2Proof.Machine.execUp s
  | .filterAverage => Sys2Proof.Machine.execAverage s
  | .filterPaeth => Sys2Proof.Machine.execPaeth s
  | .start irqEn ignored => Sys2Proof.Machine.execStart irqEn ignored s
  | .clear irqEn ignored => Sys2Proof.Machine.execClear irqEn ignored s

end Sys2Proof.Machine
end

