-- ==== Sys2Proof/WellFormed.lean ====
section
/-!
DEFINITION. Which instruction terms stand for a word of the encoding. An FT8 instruction has no operand (30_encoding R61). The
`ignored` operand of a command holds only bits the command ignores (R69, R114): every bit of a START but 0 and 2, every bit of a
CLEAR but 2, 1 and 0.
-/

namespace Sys2Proof

/-- The bits of a CTRL word that a START ignores: bit 1 and bits 31..3 (R69, R114). -/
def startIgnoredMask : Word := 0xFFFFFFFA#32

/-- The bits of a CTRL word that a CLEAR ignores: bits 31..3 (R69). -/
def clearIgnoredMask : Word := 0xFFFFFFF8#32

/-- The `ignored` operand of a command has no bit set that the command reads. -/
def Instr.wf : Instr → Bool
  | .filterNone | .filterSub | .filterUp | .filterAverage | .filterPaeth => true
  | .start _ ignored => ignored &&& ~~~startIgnoredMask == 0#32
  | .clear _ ignored => ignored &&& ~~~clearIgnoredMask == 0#32

end Sys2Proof
end

