-- ==== Sys2Proof/Decode.lean ====
section
/-!
DEFINITION. The decoder and the encoder. The block decodes a filter-type byte when STATE = FILTER (30_encoding R61, R66) and a
CTRL word when one is written to offset 0x00 (R69). Every byte and every word is decoded or rejected by name.
-/

namespace Sys2Proof

/-- Why bits are no instruction. -/
inductive Reject where
  /-- The FT8 byte is one of 0x05 .. 0xFF (R65). Safe: the filter step turns it into UnknownFilterType (R95). -/
  | unknownFilterType (v : Byte)
  /-- The CTRL word has bits 0 and 1 clear: no command, it only sets IRQ_EN (R69). Safe: the write does exactly that. -/
  | noCommand (v : Word)
  deriving DecidableEq, Repr

/-- The encoded form of an instruction: where it stands and its bits. -/
inductive Encoded where
  /-- A filter-type byte in the IN stream (R61). -/
  | ft8 (v : Byte)
  /-- A word written to CTRL at offset 0x00 (R69). -/
  | ctrl (v : Word)
  deriving DecidableEq, Repr

/-- R64, R65: all 8 bits together are the code; 5 codes are legal and 251 are not. -/
def decodeFilter (v : Byte) : Except Reject Instr :=
  match v.toNat with
  | 0 => .ok .filterNone
  | 1 => .ok .filterSub
  | 2 => .ok .filterUp
  | 3 => .ok .filterAverage
  | 4 => .ok .filterPaeth
  | _ => .error (.unknownFilterType v)

/-- R69, R114: bit 0 makes a START whatever bit 1 is; else bit 1 makes a CLEAR; else the word is no command. Bit 2 is IRQ_EN. -/
def decodeCtrl (v : Word) : Except Reject Instr :=
  if v.getLsbD 0 then .ok (.start (v.getLsbD 2) (v &&& startIgnoredMask))
  else if v.getLsbD 1 then .ok (.clear (v.getLsbD 2) (v &&& clearIgnoredMask))
  else .error (.noCommand v)

/-- The decoder on both formats. -/
def decode : Encoded → Except Reject Instr
  | .ft8 v => decodeFilter v
  | .ctrl v => decodeCtrl v

/-- IRQ_EN in its place, bit 2 of a CTRL word (R17). -/
def irqEnBit (irqEn : Bool) : Word := if irqEn then 0x4#32 else 0x0#32

/-- The encoder: R64 for the filter-type bytes, R69 for the commands. -/
def encode : Instr → Encoded
  | .filterNone => .ft8 0x00#8
  | .filterSub => .ft8 0x01#8
  | .filterUp => .ft8 0x02#8
  | .filterAverage => .ft8 0x03#8
  | .filterPaeth => .ft8 0x04#8
  | .start irqEn ignored => .ctrl (0x1#32 ||| irqEnBit irqEn ||| ignored)
  | .clear irqEn ignored => .ctrl (0x2#32 ||| irqEnBit irqEn ||| ignored)

/-- The mask and the match of each instruction's row in spec/opcode_table.json (R73), with the row's width in bits. -/
structure TableRow where
  nbits : Nat
  mask : Nat
  pattern : Nat
  deriving DecidableEq, Repr

/-- spec/opcode_table.json, row by row. -/
def tableRow : Instr → TableRow
  | .filterNone => ⟨8, 0xFF, 0x00⟩
  | .filterSub => ⟨8, 0xFF, 0x01⟩
  | .filterUp => ⟨8, 0xFF, 0x02⟩
  | .filterAverage => ⟨8, 0xFF, 0x03⟩
  | .filterPaeth => ⟨8, 0xFF, 0x04⟩
  | .start _ _ => ⟨32, 0x00000001, 0x00000001⟩
  | .clear _ _ => ⟨32, 0x00000003, 0x00000002⟩

/-- The bits of an encoded instruction as one number, and how many there are. -/
def Encoded.bits : Encoded → Nat × Nat
  | .ft8 v => (8, v.toNat)
  | .ctrl v => (32, v.toNat)

/-- The instruction this decoder reads from bits numbered as spec/opcode_table.json numbers them: an 8-bit row is one FT8 byte
of the IN stream, a 32-bit row one word written to CTRL. No other width exists (R61, R69). -/
def decodeTableWord (nbits w : Nat) : Option Instr :=
  if nbits = 8 then (decodeFilter (BitVec.ofNat 8 w)).toOption
  else if nbits = 32 then (decodeCtrl (BitVec.ofNat 32 w)).toOption
  else none

end Sys2Proof
end

