-- ==== Sys2Proof/Machine/Registers.lean ====
section
/-!
DEFINITION. The register space (10_state R17 to R27, R38 to R40; 20_memory R46, R47, R56; 43_host_commands R105 to R107, R115, R116):
the map, reads, and the writes that are no command.
-/

namespace Sys2Proof.Machine

/-- The registers of the map (R38). -/
inductive Reg where
  | ctrl | status | width | height | bpp | inlenLo | inlenHi | errInfo | errRow | posRow | posByte | ftCur | outCountLo
  | outCountHi | unmapped
  deriving DecidableEq, Repr

/-- The register at a word offset (R38). Offsets 0x38 and 0x3C are unmapped (R115). -/
def regAt (off : Nat) : Reg :=
  match off with
  | 0x00 => .ctrl
  | 0x04 => .status
  | 0x08 => .width
  | 0x0C => .height
  | 0x10 => .bpp
  | 0x14 => .inlenLo
  | 0x18 => .inlenHi
  | 0x1C => .errInfo
  | 0x20 => .errRow
  | 0x24 => .posRow
  | 0x28 => .posByte
  | 0x2C => .ftCur
  | 0x30 => .outCountLo
  | 0x34 => .outCountHi
  | _ => .unmapped

/-- CTRL reads `IRQ_EN << 2` (R17). -/
def Block.ctrlWord (k : Block) : Word := (BitVec.ofBool k.irqEn).zeroExtend 32 <<< 2

/-- STATUS reads `{22'b0, IRQ, BUSY, ERR_CODE, 1'b0, STATE}` (R18, R105). -/
def Block.statusWord (k : Block) : Word :=
  0#22 ++ BitVec.ofBool k.irq ++ BitVec.ofBool k.busy ++ k.errCode.code ++ 0#1 ++ k.state.code

/-- The value of a register, assembled from its fields (R105). -/
def Block.readReg (k : Block) : Reg → Word
  | .ctrl => k.ctrlWord
  | .status => k.statusWord
  | .width => k.width
  | .height => k.height
  | .bpp => k.bpp.zeroExtend 32
  | .inlenLo => k.inlen.extractLsb' 0 32
  | .inlenHi => k.inlen.extractLsb' 32 32
  | .errInfo => k.errInfo
  | .errRow => k.errRow
  | .posRow => k.posRow
  | .posByte => k.posByte
  | .ftCur => k.ftCur.zeroExtend 32
  | .outCountLo => k.outCount.extractLsb' 0 32
  | .outCountHi => k.outCount.extractLsb' 32 32
  | .unmapped => 0#32

/-- A configuration register written with BUSY = 0 (R116). A write to any other register here has no effect (R40, R115). -/
def Block.writeConfig (k : Block) (r : Reg) (v : Word) : Block :=
  match r with
  | .width => { k with width := v }
  | .height => { k with height := v }
  | .bpp => { k with bpp := v.extractLsb' 0 3 }
  | .inlenLo => { k with inlen := k.inlen.extractLsb' 32 32 ++ v }
  | .inlenHi => { k with inlen := v ++ k.inlen.extractLsb' 0 32 }
  | .ctrl | .status | .errInfo | .errRow | .posRow | .posByte | .ftCur | .outCountLo | .outCountHi | .unmapped => k

/-- A register write that is no command (R106): configuration is locked while BUSY (R107). A CTRL word with no command bit sets
IRQ_EN in every state (R69, R108). -/
def Block.writeReg (k : Block) (r : Reg) (v : Word) : Block :=
  match r with
  | .ctrl => k.setIrqEn (v.getLsbD 2)
  | _ => if k.busy then k else k.writeConfig r v

/-- The register accesses that have no meaning (R47, R56; log entry 10), by name. -/
def accessRefusal (bits off : Nat) : Option Refusal :=
  if bits ≠ 32 then some .accessWidth
  else if off % 4 ≠ 0 then some .accessAlignment
  else if 0x40 ≤ off then some .accessOutsideBlock
  else none

end Sys2Proof.Machine
end

