-- ==== Sys2Proof/Machine/Fetch.lean ====
section
/-!
DEFINITION. What happens next (00_scope R13): which instruction the machine runs and on what state, or the outcome of a step that
runs none. The host's next action is taken from its schedule; when there is none, the block takes its stream step if one is enabled
(42_sequencer R100; log entry 4).
-/

namespace Sys2Proof.Machine

/-- The next thing the machine does. -/
inductive Fetched where
  /-- Run this instruction on this state. -/
  | run (i : Instr) (s : State)
  /-- No instruction runs: this is the step's outcome. -/
  | settled (o : Host.Outcome State Fault Refusal)

/-- The filter step with an illegal code `v`, already consumed (R95): ERR_ROW <- r, then UnknownFilterType. -/
def Block.rejectFilter (k : Block) (v : Byte) : Block :=
  (k.setErrRow k.posRow).raiseErr .unknownFilterType (v.zeroExtend 32)

/-- The filter step's fetch (R94, R95): the offered byte is consumed and decoded. -/
def fetchFilter (s : State) : Fetched :=
  if s.host.offering then
    match s.host.input with
    | [] => .settled (.next s)
    | v :: rest =>
      match decodeFilter v with
      | .ok i => .run i (s.setInput rest)
      | .error _ => .settled (.next ((s.setInput rest).setBlk (s.blk.rejectFilter v)))
  else .settled (.next s)

/-- The data step's fetch: the instruction is the one latched in FT_CUR for the row (R68, R96). The data byte is an operand, which
the instruction itself reads. -/
def fetchData (s : State) : Fetched :=
  if s.dataReady then
    match decodeFilter (s.blk.ftCur.zeroExtend 8) with
    | .ok i => .run i s
    | .error _ => .settled (.fault .latchedFilterCode)
  else .settled (.next s)

/-- The block's stream step, if one is enabled; otherwise a hold, which changes no state (R100). -/
def fetchStream (s : State) : Fetched :=
  match s.blk.state with
  | .filter => fetchFilter s
  | .data => fetchData s
  | .idle | .done | .error => .settled (.next s)

/-- A register read (R105): the value goes to the host and no state of the block changes (R54). -/
def hostRead (bits off : Nat) (s : State) : Fetched :=
  match accessRefusal bits off with
  | some r => .settled (.refused r)
  | none => .settled (.next (s.giveRead (s.blk.readReg (regAt off))))

/-- A register write (R106): a command word written to CTRL runs its instruction. -/
def hostWrite (bits off : Nat) (v : Word) (s : State) : Fetched :=
  match accessRefusal bits off with
  | some r => .settled (.refused r)
  | none =>
    match regAt off with
    | .ctrl =>
      match decodeCtrl v with
      | .ok i => .run i s
      | .error _ => .settled (.next (s.setBlk (s.blk.writeReg .ctrl v)))
    | r => .settled (.next (s.setBlk (s.blk.writeReg r v)))

/-- One action of the host (R151). A reset puts every item of the block's state to its reset value and touches neither stream (R137). -/
def hostEvent (e : HostEvent) (s : State) : Fetched :=
  match e with
  | .run => fetchStream s
  | .lines offering accepting => .settled (.next (s.setLines offering accepting))
  | .read bits off => hostRead bits off s
  | .write bits off v => hostWrite bits off v s
  | .reset => .settled (.next (s.setBlk Block.reset))

/-- The next thing the machine does in state `s`. -/
def fetch (s : State) : Fetched :=
  match s.host.sched with
  | [] => fetchStream s
  | e :: es => hostEvent e (s.setSched es)

/-- A running session at its first filter step, for `State.withFetchWord`: the block as an accepted START leaves it, with the
smallest legal configuration, one row of one byte, where the current one is not legal (log entry 3). -/
def Block.openSession (cap : Nat) (k : Block) : Block :=
  match startCheck cap k with
  | none => k.clearErr.clearSession.setState .filter
  | some _ =>
    { k with width := 1#32, height := 1#32, bpp := 1#3, inlen := 2#64 }.clearErr.clearSession.setState .filter

/-- The machine with the filter-type byte `v` as the next byte a filter step consumes. -/
def placeFilter (s : State) (v : Byte) : State :=
  { s with
    blk := if s.blk.state = .filter then s.blk else s.blk.openSession s.maxRowBytes
    host := { s.host with sched := .run :: s.host.sched, input := v :: s.host.input, offering := true } }

/-- The machine with a write of `v` to CTRL as the host's next action. -/
def placeCommand (s : State) (v : Word) : State :=
  s.setSched (.write 32 0x00 v :: s.host.sched)

end Sys2Proof.Machine
end

