-- ==== Sys2Proof/Machine/Step.lean ====
section
/-!
DEFINITION. The step function (00_scope R13): what `fetch` finds, with `exec` for an instruction. And the placing of an encoded
instruction where the next step fetches it.
-/

namespace Sys2Proof.Machine

/-- One step of the machine. -/
def step (s : State) : Host.Outcome State Fault Refusal :=
  match fetch s with
  | .run i t => exec i t
  | .settled o => o

/-- `s` with the instruction whose bits are `w` where the next step fetches it: an 8-bit row as the offered filter-type byte of a
running session, a 32-bit row as the word the host writes to CTRL next (log entry 3). -/
def State.withFetchWord (s : State) (nbits w : Nat) : State :=
  if nbits = 8 then placeFilter s (BitVec.ofNat 8 w)
  else if nbits = 32 then placeCommand s (BitVec.ofNat 32 w)
  else s

end Sys2Proof.Machine
end

