-- ==== Sys2Proof/Safety.lean ====
section
/-!
DEFINITION. The terms of the claims: the invariant of reachable states (10_state R42 with what R24, R26, R31 and R32 say beside
it), the boundary-case mux as a relation (40_operands R78), a run of several steps, the count of consumed bytes (R44), the reference
reconstruction of a row and of an image over plain lists, the forward filter of 95_test_vectors 2.11, and the relation of session
isolation (R152).
-/

namespace Sys2Proof.Machine

/-! ## The invariant -/

/-- What ERR_CODE, ERR_INFO and ERR_ROW hold together (R24, R119, R42). -/
def Block.ErrorFieldsLegal (k : Block) : Prop :=
  match k.errCode with
  | .noError => k.state ≠ .error ∧ k.errInfo = 0#32 ∧ k.errRow = 0#32
  | .truncatedScanlines => k.state = .error ∧ k.errInfo = 0#32 ∧ k.errRow = 0#32
  | .unknownFilterType =>
    k.state = .error ∧ 5 ≤ k.errInfo.toNat ∧ k.errInfo.toNat ≤ 255 ∧ k.errRow = k.posRow
  | .configError => k.state = .error ∧ 1 ≤ k.errInfo.toNat ∧ k.errInfo.toNat ≤ 4 ∧ k.errRow = 0#32

/-- A configuration that START accepts for a buffer of `cap` cells (R109, R120, R121). -/
structure Block.ConfigLegal (cap : Nat) (k : Block) : Prop where
  width_pos : 0 < k.width.toNat
  height_pos : 0 < k.height.toNat
  bpp_legal : k.bpp = 1#3 ∨ k.bpp = 3#3 ∨ k.bpp = 4#3
  row_fits : k.rowBytes ≤ cap
  enough_input : k.needed ≤ k.inlen.toNat

/-- R42's DONE clause for the configuration the session ran with, `session`: r = HEIGHT, i = 0 and OUT_COUNT = OUT_TOTAL. It is the
current configuration until the host writes the registers for the next START (R116, R142; log entry 9). -/
def Block.EndedSession (cap : Nat) (k : Block) : Prop :=
  ∃ session : Block, session.ConfigLegal cap ∧ k.posRow = session.height ∧ k.posByte = 0#32 ∧
    k.outCount.toNat = session.outTotal

/-- R42 as the spec lists it, line by line, over the current registers. -/
structure Block.Listed (cap : Nat) (k : Block) : Prop where
  at_filter : k.state = .filter →
    k.posRow.toNat < k.height.toNat ∧ k.posByte = 0#32 ∧ k.outCount.toNat = k.posRow.toNat * k.rowBytes
  at_data : k.state = .data →
    k.posRow.toNat < k.height.toNat ∧ k.posByte.toNat < k.rowBytes ∧
      k.outCount.toNat = k.posRow.toNat * k.rowBytes + k.posByte.toNat
  at_done : k.state = .done →
    k.posRow = k.height ∧ k.posByte = 0#32 ∧ k.outCount.toNat = k.outTotal ∧ k.errCode = .noError
  at_error : k.state = .error → k.errCode ≠ .noError
  at_idle : k.state = .idle → k.errCode = .noError
  config : k.busy = true →
    (1 ≤ k.rowBytes ∧ k.rowBytes ≤ cap) ∧ 1 ≤ k.height.toNat ∧ k.needed ≤ k.inlen.toNat

/-- What holds of the block in every reachable state (R42; log entry 9 for its DONE clause), for buffers of `cap` cells. -/
structure Block.Inv (cap : Nat) (k : Block) : Prop where
  /-- The canonical form of both buffers, and every cell inside its buffer (R31, R32). -/
  prev_wf : RowBuf.wf k.prev
  cur_wf : RowBuf.wf k.cur
  prev_inside : ∀ cell ∈ k.prev, cell.1 < cap
  cur_inside : ∀ cell ∈ k.cur, cell.1 < cap
  /-- R24, R42. -/
  errors : k.ErrorFieldsLegal
  /-- R42, FILTER. -/
  at_filter : k.state = .filter →
    k.posRow.toNat < k.height.toNat ∧ k.posByte = 0#32 ∧ k.outCount.toNat = k.posRow.toNat * k.rowBytes
  /-- R42, DATA. -/
  at_data : k.state = .data →
    k.posRow.toNat < k.height.toNat ∧ k.posByte.toNat < k.rowBytes ∧
      k.outCount.toNat = k.posRow.toNat * k.rowBytes + k.posByte.toNat
  /-- R42, DONE, for the configuration of the session that ended. -/
  at_done : k.state = .done → k.EndedSession cap
  /-- R42, BUSY. -/
  config : k.busy = true → k.ConfigLegal cap
  /-- R68: FT_CUR holds a legal code. -/
  latched : k.ftCur.toNat ≤ 4
  /-- R32: the cells of the current row before i hold a value. -/
  cur_filled : k.state = .data → ∀ j, j < k.posByte.toNat → (cellAt k.cur j).isSome = true
  /-- R31: from row 1 on, the cells of the previous row hold a value. -/
  prev_filled : k.busy = true → k.posRow ≠ 0#32 → ∀ j, j < k.rowBytes → (cellAt k.prev j).isSome = true

/-- The invariant of the machine: MAX_ROW_BYTES in its range (R8) and the invariant of the block. -/
structure State.Inv (s : State) : Prop where
  cap_pos : 1 ≤ s.maxRowBytes
  cap_word : s.maxRowBytes ≤ 2 ^ 32 - 1
  blk : s.blk.Inv s.maxRowBytes

/-! ## The mux as a relation -/

/-- The values a, b and c have in a data step (R76, R77, R78). -/
def Block.MuxGives (k : Block) (a b c : Byte) : Prop :=
  (if k.posByte.toNat < k.bpp.toNat then a = 0#8 else cellAt k.cur (k.posByte.toNat - k.bpp.toNat) = some a) ∧
  (if k.posRow = 0#32 then b = 0#8 else cellAt k.prev k.posByte.toNat = some b) ∧
  (if k.posByte.toNat < k.bpp.toNat ∨ k.posRow = 0#32 then c = 0#8
    else cellAt k.prev (k.posByte.toNat - k.bpp.toNat) = some c)

/-- A data step is enabled with input byte `x`, and `rest` stays with the host (R100). -/
def State.DataEnabled (s : State) (x : Byte) (rest : List Byte) : Prop :=
  s.blk.state = .data ∧ s.host.offering = true ∧ s.host.accepting = true ∧ s.host.input = x :: rest

/-- In `s` it is the turn of the stream step, the host doing nothing: its plan is empty or says so. `u` is `s` with that turn taken from
the plan (R100). -/
def State.StreamTurn (s u : State) : Prop :=
  (s.host.sched = [] ∧ u = s) ∨ ∃ es, s.host.sched = .run :: es ∧ u = { s with host := { s.host with sched := es } }

/-- The host does nothing but offer its stream and accept every byte. -/
def State.FreeRunning (s : State) : Prop :=
  s.host.sched = [] ∧ s.host.offering = true ∧ s.host.accepting = true

/-- `k` steps from `s`, ending early at a fault or a refusal: the run of Host.Core, over this model's own types. -/
def runSteps : Nat → State → Host.Outcome State Fault Refusal
  | 0, s => .next s
  | k + 1, s =>
    match step s with
    | .next t => runSteps k t
    | .fault f => .fault f
    | .refused r => .refused r

/-! ## The count of consumed bytes -/

/-- R44: how many input bytes the current session has consumed. R44 gives no count in IDLE, where there is no session: 0 there is a
DESIGN CHOICE (log entry 18), and so is 0 for an error code that no run pairs with STATE ERROR. In DONE and ERROR the formula is taken
over the current registers (R28). That it stays so after the host writes the configuration there, when it need no longer be the number
of bytes the session consumed, is a DESIGN CHOICE (log entry 19). -/
def Block.consumed (k : Block) : Nat :=
  match k.state with
  | .idle => 0
  | .filter => k.posRow.toNat * (1 + k.rowBytes)
  | .data => k.posRow.toNat * (1 + k.rowBytes) + (1 + k.posByte.toNat)
  | .done => k.needed
  | .error => if k.errCode = .unknownFilterType then k.posRow.toNat * (1 + k.rowBytes) + 1 else 0

/-! ## Reference reconstruction over lists -/

/-- The predictor of a filter-type byte (R83). It is used on legal codes only. -/
def predictorOf (v : Byte) : Neighbours → Byte :=
  match v.toNat with
  | 0 => predNone
  | 1 => predSub
  | 2 => predUp
  | 3 => predAverage
  | _ => predPaeth

/-- The neighbours of byte `line.length` of a row whose earlier bytes are `line`, under a row `above`; for the first row `above` is
empty (R75 to R78). -/
def refNeighbours (bpp : Nat) (above line : List Byte) : Neighbours where
  a := if line.length < bpp then 0#8 else line.getD (line.length - bpp) 0#8
  b := above.getD line.length 0#8
  c := if line.length < bpp then 0#8 else above.getD (line.length - bpp) 0#8

/-- The row `line` continued by reconstructing the filtered bytes left to right. -/
def refRowFrom (pred : Neighbours → Byte) (bpp : Nat) (above : List Byte) : List Byte → List Byte → List Byte
  | line, [] => line
  | line, x :: xs => refRowFrom pred bpp above (line ++ [recon pred x (refNeighbours bpp above line)]) xs

/-- A reconstructed row. -/
def refRow (pred : Neighbours → Byte) (bpp : Nat) (above xs : List Byte) : List Byte := refRowFrom pred bpp above [] xs

/-- The reconstructed image: each row under the one before it, row by row (R99). A row is its filter-type byte and its data bytes. -/
def refImage (bpp : Nat) : List Byte → List (Byte × List Byte) → List Byte
  | _, [] => []
  | above, (v, xs) :: rows =>
    refRow (predictorOf v) bpp above xs ++ refImage bpp (refRow (predictorOf v) bpp above xs) rows

/-- The stream of an image: each row headed by its filter-type byte (R62). -/
def imageStream (rows : List (Byte × List Byte)) : List Byte := rows.flatMap (fun row => row.1 :: row.2)

/-- The forward filter of one row, x = (y - pred) mod 256, with pred computed from reconstructed bytes (95_test_vectors 2.11). -/
def forwardRowFrom (pred : Neighbours → Byte) (bpp : Nat) (above : List Byte) : List Byte → List Byte → List Byte
  | _, [] => []
  | line, y :: ys => (y - pred (refNeighbours bpp above line)) :: forwardRowFrom pred bpp above (line ++ [y]) ys

/-- The forward filter of an image: each row with the filter named beside it. -/
def forwardImage (bpp : Nat) : List Byte → List (Byte × List Byte) → List (Byte × List Byte)
  | _, [] => []
  | above, (v, ys) :: rows => (v, forwardRowFrom (predictorOf v) bpp above [] ys) :: forwardImage bpp ys rows

/-- The previous row the block holds, as a list: empty in row 0 (R77), else `above` in PREV[0 .. ROW_BYTES - 1] (R31). -/
def Block.PrevHolds (k : Block) (above : List Byte) : Prop :=
  if k.posRow = 0#32 then above = []
  else above.length = k.rowBytes ∧ ∀ j, j < k.rowBytes → cellAt k.prev j = above[j]?

/-! ## Session isolation -/

/-- Two machines that agree on everything a session's outcome may depend on: all of the state but PREV, and PREV only where a row
after the first reads it (R152). -/
def State.Alike (s t : State) : Prop :=
  s.maxRowBytes = t.maxRowBytes ∧ s.host = t.host ∧ { s.blk with prev := [] } = { t.blk with prev := [] } ∧
    (s.blk.busy = true → s.blk.posRow ≠ 0#32 → ∀ j, j < s.blk.rowBytes → cellAt s.blk.prev j = cellAt t.blk.prev j)

end Sys2Proof.Machine
end

