-- ==== Sys2Proof/Certificates/Slice0/Obligations.lean ====
section
/-!
DEFINITION. The statements for the provers. Each docstring names the rules of spec/ it formalises. No statement rests on the value
`State.reset` gives to MAX_ROW_BYTES (log entry 1); every statement about a state holds for every value of it.
-/

open Sys2Proof Sys2Proof.Machine

/-! ## Reset -/

/-- R37: the reset values, and a START issued without configuration. -/
def Obligations.ResetLeavesTheStatedValues : Prop :=
  State.reset.blk.irqEn = false ∧ State.reset.blk.state = .idle ∧ State.reset.blk.errCode = .noError ∧
    State.reset.blk.width = 0#32 ∧ State.reset.blk.height = 0#32 ∧ State.reset.blk.bpp = 0#3 ∧
    State.reset.blk.inlen = 0#64 ∧ State.reset.blk.errInfo = 0#32 ∧ State.reset.blk.errRow = 0#32 ∧
    State.reset.blk.posRow = 0#32 ∧ State.reset.blk.posByte = 0#32 ∧ State.reset.blk.ftCur = 0#3 ∧
    State.reset.blk.outCount = 0#64 ∧
    (∀ j, cellAt State.reset.blk.prev j = none ∧ cellAt State.reset.blk.cur j = none) ∧
    State.reset.blk.irq = false ∧
    ∀ irqEn ignored, ∃ t, exec (.start irqEn ignored) State.reset = .next t ∧
      t.blk.state = .error ∧ t.blk.errCode = .configError ∧ t.blk.errInfo = 1#32

/-- R137: a reset step in any state, a hold included. It restores every item of the block's state, irq becomes 0, and it consumes no
byte and delivers none. That the rest of the host's plan, its lines, its record of reads and MAX_ROW_BYTES stay as they are is the
model's choice (log entry 15). -/
def Obligations.ResetStepRestoresEveryItem : Prop :=
  ∀ (s : State) (es : List HostEvent), s.host.sched = .reset :: es →
    ∃ t, step s = .next t ∧ t.blk = State.reset.blk ∧ t.blk.irq = false ∧ t.host.input = s.host.input ∧
      t.host.output = s.host.output ∧ t.host.readData = s.host.readData ∧ t.host.sched = es ∧
      t.host.offering = s.host.offering ∧ t.host.accepting = s.host.accepting ∧ t.maxRowBytes = s.maxRowBytes

/-! ## The register space -/

/-- R105: what each register reads as, in every state, and that a read changes nothing but the host's record of it. -/
def Obligations.RegisterReadReturnsItsFields : Prop :=
  ∀ (s : State) (es : List HostEvent) (off : Nat), s.host.sched = .read 32 off :: es → off % 4 = 0 → off < 0x40 →
    ∃ v : Word,
      step s = .next { s with host := { s.host with sched := es, readData := s.host.readData ++ [v] } } ∧
      (off = 0x00 → v.toNat = if s.blk.irqEn then 4 else 0) ∧
      (off = 0x04 →
        v.extractLsb' 0 3 = (match s.blk.state with
          | .idle => 0#3 | .filter => 1#3 | .data => 2#3 | .done => 3#3 | .error => 4#3) ∧
        v.getLsbD 3 = false ∧
        v.extractLsb' 4 4 = (match s.blk.errCode with
          | .noError => 0#4 | .truncatedScanlines => 1#4 | .unknownFilterType => 2#4 | .configError => 3#4) ∧
        v.getLsbD 8 = decide (s.blk.state = .filter ∨ s.blk.state = .data) ∧
        v.getLsbD 9 = (s.blk.irqEn && decide (s.blk.state = .done ∨ s.blk.state = .error)) ∧
        v.extractLsb' 10 22 = 0#22) ∧
      (off = 0x08 → v = s.blk.width) ∧ (off = 0x0C → v = s.blk.height) ∧
      (off = 0x10 → v.toNat = s.blk.bpp.toNat) ∧
      (off = 0x14 → v.toNat = s.blk.inlen.toNat % 2 ^ 32) ∧ (off = 0x18 → v.toNat = s.blk.inlen.toNat / 2 ^ 32) ∧
      (off = 0x1C → v = s.blk.errInfo) ∧ (off = 0x20 → v = s.blk.errRow) ∧
      (off = 0x24 → v = s.blk.posRow) ∧ (off = 0x28 → v = s.blk.posByte) ∧
      (off = 0x2C → v.toNat = s.blk.ftCur.toNat) ∧
      (off = 0x30 → v.toNat = s.blk.outCount.toNat % 2 ^ 32) ∧
      (off = 0x34 → v.toNat = s.blk.outCount.toNat / 2 ^ 32) ∧
      (off = 0x38 ∨ off = 0x3C → v = 0#32)

/-- R70: the STATUS words a session can leave. -/
def Obligations.StatusWordIsOneOfTheListed : Prop :=
  ∀ s : State, s.Inv →
    (s.blk.state = .idle → s.blk.statusWord = 0x00000000#32) ∧
    (s.blk.state = .filter → s.blk.statusWord = 0x00000101#32) ∧
    (s.blk.state = .data → s.blk.statusWord = 0x00000102#32) ∧
    (s.blk.state = .done → s.blk.statusWord = if s.blk.irqEn then 0x00000203#32 else 0x00000003#32) ∧
    (s.blk.state = .error →
      (s.blk.errCode = .truncatedScanlines ∧ s.blk.statusWord = if s.blk.irqEn then 0x00000214#32 else 0x00000014#32) ∨
      (s.blk.errCode = .unknownFilterType ∧ s.blk.statusWord = if s.blk.irqEn then 0x00000224#32 else 0x00000024#32) ∨
      (s.blk.errCode = .configError ∧ s.blk.statusWord = if s.blk.irqEn then 0x00000234#32 else 0x00000034#32))

/-- R116: a configuration write while BUSY = 0 changes its register and nothing else. -/
def Obligations.ConfigurationWriteStoresItsField : Prop :=
  ∀ (s : State) (es : List HostEvent) (off : Nat) (v : Word), s.host.sched = .write 32 off v :: es → s.blk.busy = false →
    (off = 0x08 → step s = .next { s with blk := { s.blk with width := v }, host := { s.host with sched := es } }) ∧
    (off = 0x0C → step s = .next { s with blk := { s.blk with height := v }, host := { s.host with sched := es } }) ∧
    (off = 0x10 → ∃ p : BitVec 3, p.toNat = v.toNat % 8 ∧
      step s = .next { s with blk := { s.blk with bpp := p }, host := { s.host with sched := es } }) ∧
    (off = 0x14 → ∃ n : BitVec 64, n.toNat = s.blk.inlen.toNat / 2 ^ 32 * 2 ^ 32 + v.toNat ∧
      step s = .next { s with blk := { s.blk with inlen := n }, host := { s.host with sched := es } }) ∧
    (off = 0x18 → ∃ n : BitVec 64, n.toNat = v.toNat * 2 ^ 32 + s.blk.inlen.toNat % 2 ^ 32 ∧
      step s = .next { s with blk := { s.blk with inlen := n }, host := { s.host with sched := es } })

/-- R107: a configuration write while BUSY changes no state. -/
def Obligations.ConfigurationWriteIgnoredWhileBusy : Prop :=
  ∀ (s : State) (es : List HostEvent) (off : Nat) (v : Word), s.host.sched = .write 32 off v :: es → s.blk.busy = true →
    off = 0x08 ∨ off = 0x0C ∨ off = 0x10 ∨ off = 0x14 ∨ off = 0x18 →
    step s = .next { s with host := { s.host with sched := es } }

/-- R40, R115: a write to a read-only register or to an unmapped offset changes no state; an unmapped offset reads 0. -/
def Obligations.ReadOnlyAndUnmappedWritesChangeNothing : Prop :=
  ∀ (s : State) (es : List HostEvent) (off : Nat),
    off ∈ [0x04, 0x1C, 0x20, 0x24, 0x28, 0x2C, 0x30, 0x34, 0x38, 0x3C] →
    (∀ v : Word, s.host.sched = .write 32 off v :: es → step s = .next { s with host := { s.host with sched := es } }) ∧
    (off = 0x38 ∨ off = 0x3C → s.host.sched = .read 32 off :: es →
      step s = .next { s with host := { s.host with sched := es, readData := s.host.readData ++ [0#32] } })

/-- R47, and R56 for offsets of 0x40 or more: an access that has no meaning is refused, a read or a write, never answered in part. The
spec names no reason for a refusal and gives no order among them. That an access wrong in width or alignment is refused under one of
those two names, also where its offset is 0x40 or more, is the model's choice (log entry 10). -/
def Obligations.MeaninglessAccessIsRefused : Prop :=
  ∀ (s : State) (es : List HostEvent) (bits off : Nat),
    (s.host.sched = .read bits off :: es ∨ ∃ v : Word, s.host.sched = .write bits off v :: es) →
    (bits ≠ 32 ∨ off % 4 ≠ 0 → ∃ r, step s = .refused r ∧ (r = .accessWidth ∨ r = .accessAlignment)) ∧
    (bits = 32 → off % 4 = 0 → 0x40 ≤ off → step s = .refused .accessOutsideBlock)

/-! ## CTRL writes, START and CLEAR -/

/-- R108: every CTRL write, in every state, sets IRQ_EN to bit 2 of the word, and the irq output follows in the same step. A word with
no command bit does nothing else (R69). -/
def Obligations.CtrlWriteSetsInterruptEnable : Prop :=
  ∀ (s : State) (es : List HostEvent) (v : Word), s.host.sched = .write 32 0x00 v :: es →
    ∃ t, step s = .next t ∧ t.blk.irqEn = v.getLsbD 2 ∧
      t.blk.irq = (v.getLsbD 2 && decide (t.blk.state = .done ∨ t.blk.state = .error)) ∧
      (v.getLsbD 0 = false → v.getLsbD 1 = false →
        t = { s with blk := { s.blk with irqEn := v.getLsbD 2 }, host := { s.host with sched := es } })

/-- R114: a CTRL word with bits 0 and 1 both set does what the same word with bit 1 clear does, and so for the bits 31..3 that R69
ignores. -/
def Obligations.CtrlWriteIgnoresItsIgnoredBits : Prop :=
  ∀ (s t : State) (es : List HostEvent) (v w : Word),
    v.getLsbD 0 = w.getLsbD 0 → v.getLsbD 2 = w.getLsbD 2 → (v.getLsbD 0 = false → v.getLsbD 1 = w.getLsbD 1) →
    step (s.setSched (.write 32 0x00 v :: es)) = .next t → step (s.setSched (.write 32 0x00 w :: es)) = .next t

/-- R109 with the order of R110: an accepted START, check by check. -/
def Obligations.StartFollowsItsChecksInOrder : Prop :=
  ∀ (s : State) (irqEn : Bool) (ignored : Word), s.blk.busy = false →
    ∃ st code info,
      exec (.start irqEn ignored) s = .next { s with blk := { s.blk with
        irqEn := irqEn, state := st, errCode := code, errInfo := info, errRow := 0#32, posRow := 0#32, posByte := 0#32,
        ftCur := 0#3, outCount := 0#64, cur := [] } } ∧
      (if s.blk.width.toNat = 0 then st = .error ∧ code = .configError ∧ info = 1#32
        else if s.blk.height.toNat = 0 then st = .error ∧ code = .configError ∧ info = 2#32
        else if s.blk.bpp.toNat ≠ 1 ∧ s.blk.bpp.toNat ≠ 3 ∧ s.blk.bpp.toNat ≠ 4 then
          st = .error ∧ code = .configError ∧ info = 3#32
        else if s.maxRowBytes < s.blk.width.toNat * s.blk.bpp.toNat then st = .error ∧ code = .configError ∧ info = 4#32
        else if s.blk.inlen.toNat < s.blk.height.toNat * (1 + s.blk.width.toNat * s.blk.bpp.toNat) then
          st = .error ∧ code = .truncatedScanlines ∧ info = 0#32
        else st = .filter ∧ code = .noError ∧ info = 0#32)

/-- R109, R111: where START executes, in every state. Accepted with a legal configuration and enough input it opens the session at
row 0 in FILTER; while BUSY it changes nothing but IRQ_EN. -/
def Obligations.StartOpensASessionOrIsIgnoredWhileBusy : Prop :=
  ∀ (s : State) (irqEn : Bool) (ignored : Word),
    (s.blk.busy = false → s.blk.ConfigLegal s.maxRowBytes →
      exec (.start irqEn ignored) s = .next { s with blk := { s.blk with
        irqEn := irqEn, state := .filter, errCode := .noError, errInfo := 0#32, errRow := 0#32, posRow := 0#32,
        posByte := 0#32, ftCur := 0#3, outCount := 0#64, cur := [] } }) ∧
    (s.blk.busy = true → exec (.start irqEn ignored) s = .next { s with blk := { s.blk with irqEn := irqEn } })

/-- R112, R113: CLEAR, accepted and ignored. -/
def Obligations.ClearAcknowledgesOrIsIgnoredWhileBusy : Prop :=
  ∀ (s : State) (irqEn : Bool) (ignored : Word),
    (s.blk.busy = false → exec (.clear irqEn ignored) s = .next { s with blk := { s.blk with
      irqEn := irqEn, state := .idle, errCode := .noError, errInfo := 0#32, errRow := 0#32 } }) ∧
    (s.blk.busy = true → exec (.clear irqEn ignored) s = .next { s with blk := { s.blk with irqEn := irqEn } })

/-- R112: CLEAR in IDLE changes nothing but IRQ_EN. -/
def Obligations.ClearInIdleOnlySetsInterruptEnable : Prop :=
  ∀ (s : State) (irqEn : Bool) (ignored : Word), s.Inv → s.blk.state = .idle →
    exec (.clear irqEn ignored) s = .next { s with blk := { s.blk with irqEn := irqEn } }

/-! ## The filter step -/

/-- R94: each of the five filter-type instructions, its byte consumed, latches its code and enters DATA; nothing else changes. -/
def Obligations.FilterInstructionLatchesItsCode : Prop :=
  ∀ (s : State) (i : Instr) (code : BitVec 3),
    (i, code) ∈ [(Instr.filterNone, 0#3), (.filterSub, 1#3), (.filterUp, 2#3), (.filterAverage, 3#3), (.filterPaeth, 4#3)] →
    s.blk.state = .filter →
    exec i s = .next { s with blk := { s.blk with ftCur := code, state := .data } }

/-- R94: the filter step of the machine with a legal code: the byte is consumed, FT_CUR latched, and nothing is output. -/
def Obligations.FilterStepConsumesAndLatches : Prop :=
  ∀ (s u : State) (v : Byte) (rest : List Byte), s.StreamTurn u → s.blk.state = .filter → s.host.offering = true →
    s.host.input = v :: rest → v.toNat ≤ 4 →
    ∃ code : BitVec 3, code.toNat = v.toNat ∧
      step s = .next { u with
        blk := { s.blk with ftCur := code, state := .data }, host := { u.host with input := rest } }

/-- R95: the filter step with an illegal code: the byte is consumed, UnknownFilterType recorded with the byte and the row, and nothing
else changes. From there, whatever the host does short of a reset or a command, no further byte is consumed and none is delivered. -/
def Obligations.IllegalFilterByteEndsTheSession : Prop :=
  ∀ (s u : State) (v : Byte) (rest : List Byte), s.StreamTurn u → s.blk.state = .filter → s.host.offering = true →
    s.host.input = v :: rest → 4 < v.toNat →
    ∃ t, step s = .next t ∧
      t = { u with
        blk := { s.blk with
          state := .error, errCode := .unknownFilterType, errInfo := v.zeroExtend 32, errRow := s.blk.posRow },
        host := { u.host with input := rest } } ∧
      ((∀ e ∈ t.host.sched, e ≠ .reset ∧
          ∀ w : Word, e = .write 32 0x00 w → w.getLsbD 0 = false ∧ w.getLsbD 1 = false) →
        ∀ k t', runSteps k t = .next t' →
          t'.host.input = rest ∧ t'.host.output = s.host.output ∧ t'.blk.state = .error)

/-- R122: the step that raises UnknownFilterType is a filter step of a byte greater than 4. It consumes the byte and records it and its
row, rows 0 .. r - 1 have been output in full, and nothing of row r has. -/
def Obligations.UnknownFilterTypeIsRaisedBetweenRows : Prop :=
  ∀ s t : State, s.Inv → s.blk.errCode ≠ .unknownFilterType → step s = .next t → t.blk.errCode = .unknownFilterType →
    s.blk.state = .filter ∧ t.blk.state = .error ∧
      (∃ v : Byte, s.host.input = v :: t.host.input ∧ 4 < v.toNat ∧ t.blk.errInfo = v.zeroExtend 32) ∧
      t.blk.errRow = s.blk.posRow ∧ t.blk.outCount.toNat = t.blk.errRow.toNat * t.blk.rowBytes ∧
      t.host.output = s.host.output

/-! ## The data step -/

/-- R84: NONE, FT8 0x00, delivers x whatever the row buffers hold, and a row of NONE is the identity on its data bytes. -/
def Obligations.NoneDeliversItsInput : Prop :=
  decode (.ft8 0x00#8) = .ok .filterNone ∧
  (∀ (bpp : Nat) (above xs : List Byte), refRow predNone bpp above xs = xs) ∧
  ∀ (s : State) (x : Byte) (rest : List Byte), s.Inv → s.DataEnabled x rest →
    ∃ t, exec .filterNone s = .next t ∧ t.host.output = s.host.output ++ [x] ∧ t.host.input = rest ∧
      t.blk.errCode = s.blk.errCode ∧ t.blk.state ≠ .error

/-- R85: SUB, FT8 0x01, delivers (x + a) mod 256, which is x at the left edge, and an all-zero row gives zeros. -/
def Obligations.SubDeliversSumWithLeft : Prop :=
  decode (.ft8 0x01#8) = .ok .filterSub ∧
  (∀ (bpp n : Nat) (above : List Byte), refRow predSub bpp above (List.replicate n 0#8) = List.replicate n 0#8) ∧
  ∀ (s : State) (x : Byte) (rest : List Byte) (a b c : Byte), s.Inv → s.DataEnabled x rest → s.blk.MuxGives a b c →
    ∃ t y, exec .filterSub s = .next t ∧ t.host.output = s.host.output ++ [y] ∧ t.host.input = rest ∧
      y.toNat = (x.toNat + a.toNat) % 256 ∧ (s.blk.posByte.toNat < s.blk.bpp.toNat → y = x) ∧
      t.blk.errCode = s.blk.errCode ∧ t.blk.state ≠ .error

/-- R86: UP, FT8 0x02, delivers (x + b) mod 256, which is x in the first row, and a first row of UP is unchanged. -/
def Obligations.UpDeliversSumWithAbove : Prop :=
  decode (.ft8 0x02#8) = .ok .filterUp ∧
  (∀ (bpp : Nat) (xs : List Byte), refRow predUp bpp [] xs = xs) ∧
  ∀ (s : State) (x : Byte) (rest : List Byte) (a b c : Byte), s.Inv → s.DataEnabled x rest → s.blk.MuxGives a b c →
    ∃ t y, exec .filterUp s = .next t ∧ t.host.output = s.host.output ++ [y] ∧ t.host.input = rest ∧
      y.toNat = (x.toNat + b.toNat) % 256 ∧ (s.blk.posRow = 0#32 → y = x) ∧
      t.blk.errCode = s.blk.errCode ∧ t.blk.state ≠ .error

/-- R87: AVERAGE, FT8 0x03, delivers (x + floor((a + b) / 2)) mod 256 with the sum a + b exact, and the boundary cases. -/
def Obligations.AverageDeliversSumWithExactHalf : Prop :=
  decode (.ft8 0x03#8) = .ok .filterAverage ∧
  ∀ (s : State) (x : Byte) (rest : List Byte) (a b c : Byte), s.Inv → s.DataEnabled x rest → s.blk.MuxGives a b c →
    ∃ t y, exec .filterAverage s = .next t ∧ t.host.output = s.host.output ++ [y] ∧ t.host.input = rest ∧
      y.toNat = (x.toNat + (a.toNat + b.toNat) / 2) % 256 ∧
      (s.blk.posRow = 0#32 → y.toNat = (x.toNat + a.toNat / 2) % 256) ∧
      (s.blk.posByte.toNat < s.blk.bpp.toNat → y.toNat = (x.toNat + b.toNat / 2) % 256) ∧
      (s.blk.posRow = 0#32 → s.blk.posByte.toNat < s.blk.bpp.toNat → y = x) ∧
      t.blk.errCode = s.blk.errCode ∧ t.blk.state ≠ .error

/-- R88, R90: PAETH, FT8 0x04, delivers x plus the candidate of a, b, c closest to p = a + b - c, ties to a, then b, then c, mod 256; and its
boundary cases. -/
def Obligations.PaethDeliversSumWithPredictor : Prop :=
  decode (.ft8 0x04#8) = .ok .filterPaeth ∧
  ∀ (s : State) (x : Byte) (rest : List Byte) (a b c : Byte), s.Inv → s.DataEnabled x rest → s.blk.MuxGives a b c →
    ∃ t y pred, exec .filterPaeth s = .next t ∧ t.host.output = s.host.output ++ [y] ∧ t.host.input = rest ∧
      y.toNat = (x.toNat + pred) % 256 ∧
      (let p : Int := (a.toNat : Int) + b.toNat - c.toNat
       let pa := |p - a.toNat|
       let pb := |p - b.toNat|
       let pc := |p - c.toNat|
       pred = if pa ≤ pb ∧ pa ≤ pc then a.toNat else if pb ≤ pc then b.toNat else c.toNat) ∧
      (s.blk.posRow = 0#32 → y.toNat = (x.toNat + a.toNat) % 256) ∧
      (s.blk.posByte.toNat < s.blk.bpp.toNat → y.toNat = (x.toNat + b.toNat) % 256) ∧
      (s.blk.posRow = 0#32 → s.blk.posByte.toNat < s.blk.bpp.toNat → y = x) ∧
      t.blk.errCode = s.blk.errCode ∧ t.blk.state ≠ .error

/-- R96, before the last byte of a row: CUR[i] holds the byte delivered, OUT_COUNT and i advance by one, STATE stays DATA. -/
def Obligations.DataStepAdvancesWithinARow : Prop :=
  ∀ (s : State) (x : Byte) (rest : List Byte) (i : Instr), s.Inv → s.DataEnabled x rest →
    i ∈ [Instr.filterNone, .filterSub, .filterUp, .filterAverage, .filterPaeth] →
    s.blk.posByte.toNat + 1 < s.blk.rowBytes →
    ∃ t y, exec i s = .next t ∧ t.host.output = s.host.output ++ [y] ∧ t.host.input = rest ∧
      cellAt t.blk.cur s.blk.posByte.toNat = some y ∧ t.blk.outCount.toNat = s.blk.outCount.toNat + 1 ∧
      t.blk.posByte.toNat = s.blk.posByte.toNat + 1 ∧ t.blk.posRow = s.blk.posRow ∧ t.blk.state = .data

/-- R97, R98: the last data step of a row commits it. PREV holds the row just reconstructed and is otherwise as before, CUR holds no
value, r advances, i is 0, and STATE is DONE after the last row and FILTER otherwise. -/
def Obligations.LastDataStepCommitsTheRow : Prop :=
  ∀ (s : State) (x : Byte) (rest : List Byte) (i : Instr), s.Inv → s.DataEnabled x rest →
    i ∈ [Instr.filterNone, .filterSub, .filterUp, .filterAverage, .filterPaeth] →
    s.blk.posByte.toNat + 1 = s.blk.rowBytes →
    ∃ t y, exec i s = .next t ∧ t.host.output = s.host.output ++ [y] ∧ t.host.input = rest ∧
      (∀ j, j < s.blk.posByte.toNat → cellAt t.blk.prev j = cellAt s.blk.cur j) ∧
      cellAt t.blk.prev s.blk.posByte.toNat = some y ∧
      (∀ j, s.blk.rowBytes ≤ j → cellAt t.blk.prev j = cellAt s.blk.prev j) ∧
      (∀ j, cellAt t.blk.cur j = none) ∧
      t.blk.posRow.toNat = s.blk.posRow.toNat + 1 ∧ t.blk.posByte = 0#32 ∧
      t.blk.outCount.toNat = s.blk.outCount.toNat + 1 ∧
      (t.blk.state = if s.blk.posRow.toNat + 1 = s.blk.height.toNat then .done else .filter)

/-- The frame of a data step (R96, R97, R124's "nothing else"): the registers it does not name are unchanged, every cell of CUR but
CUR[i] is unchanged within a row, and PREV is unchanged but for the cells a row commit stores. -/
def Obligations.DataStepLeavesTheRestUnchanged : Prop :=
  ∀ (s t : State) (i : Instr), i ∈ [Instr.filterNone, .filterSub, .filterUp, .filterAverage, .filterPaeth] →
    s.blk.state = .data → exec i s = .next t →
    t.maxRowBytes = s.maxRowBytes ∧ t.blk.irqEn = s.blk.irqEn ∧ t.blk.errCode = s.blk.errCode ∧
      t.blk.errInfo = s.blk.errInfo ∧ t.blk.errRow = s.blk.errRow ∧ t.blk.width = s.blk.width ∧
      t.blk.height = s.blk.height ∧ t.blk.bpp = s.blk.bpp ∧ t.blk.inlen = s.blk.inlen ∧ t.blk.ftCur = s.blk.ftCur ∧
      t.host.sched = s.host.sched ∧ t.host.offering = s.host.offering ∧ t.host.accepting = s.host.accepting ∧
      t.host.readData = s.host.readData ∧
      (s.blk.posByte.toNat + 1 < s.blk.rowBytes →
        t.blk.posRow = s.blk.posRow ∧ (∀ j, cellAt t.blk.prev j = cellAt s.blk.prev j) ∧
          ∀ j, j ≠ s.blk.posByte.toNat → cellAt t.blk.cur j = cellAt s.blk.cur j) ∧
      ∀ j, s.blk.rowBytes ≤ j → cellAt t.blk.prev j = cellAt s.blk.prev j

/-- R100: when a stream step is enabled and what a hold is. In IDLE, DONE and ERROR none is. In FILTER the offered byte is consumed,
and without one nothing changes. In DATA a byte is consumed and one delivered when both ports can transfer, and otherwise nothing
changes. -/
def Obligations.StreamStepIsEnabledAsTheTableSays : Prop :=
  ∀ s u : State, s.Inv → s.StreamTurn u →
    (s.blk.state = .idle ∨ s.blk.state = .done ∨ s.blk.state = .error → step s = .next u) ∧
    (s.blk.state = .filter →
      (s.host.offering = false ∨ s.host.input = [] → step s = .next u) ∧
      (∀ v rest, s.host.offering = true → s.host.input = v :: rest →
        ∃ t, step s = .next t ∧ t.host.input = rest ∧ t.host.output = s.host.output)) ∧
    (s.blk.state = .data →
      (s.host.offering = false ∨ s.host.input = [] ∨ s.host.accepting = false → step s = .next u) ∧
      (∀ x rest, s.host.offering = true → s.host.input = x :: rest → s.host.accepting = true →
        ∃ t y, step s = .next t ∧ t.host.input = rest ∧ t.host.output = s.host.output ++ [y]))

/-- R101: a data step's byte depends only on x, on the row position i - BPP and on the previous row's positions i and i - BPP. -/
def Obligations.DataStepLooksBackOneRowOnly : Prop :=
  ∀ (s t : State) (x : Byte) (rest rest' : List Byte) (i : Instr), s.Inv → t.Inv →
    s.DataEnabled x rest → t.DataEnabled x rest' →
    i ∈ [Instr.filterNone, .filterSub, .filterUp, .filterAverage, .filterPaeth] →
    s.blk.posRow = t.blk.posRow → s.blk.posByte = t.blk.posByte → s.blk.bpp = t.blk.bpp →
    (s.blk.bpp.toNat ≤ s.blk.posByte.toNat →
      cellAt s.blk.cur (s.blk.posByte.toNat - s.blk.bpp.toNat) =
        cellAt t.blk.cur (s.blk.posByte.toNat - s.blk.bpp.toNat)) →
    (s.blk.posRow ≠ 0#32 → cellAt s.blk.prev s.blk.posByte.toNat = cellAt t.blk.prev s.blk.posByte.toNat) →
    (s.blk.posRow ≠ 0#32 → s.blk.bpp.toNat ≤ s.blk.posByte.toNat →
      cellAt s.blk.prev (s.blk.posByte.toNat - s.blk.bpp.toNat) =
        cellAt t.blk.prev (s.blk.posByte.toNat - s.blk.bpp.toNat)) →
    ∃ s' t' y, exec i s = .next s' ∧ exec i t = .next t' ∧ s'.host.output = s.host.output ++ [y] ∧
      t'.host.output = t.host.output ++ [y]

/-! ## The predictors -/

/-- R90: the Paeth predictor is one of the candidates, no candidate is closer to p = a + b - c, and ties go to a, then b, then c. -/
def Obligations.PaethPicksTheClosestCandidate : Prop :=
  ∀ n : Neighbours,
    (let p : Int := (n.a.toNat : Int) + n.b.toNat - n.c.toNat
     let pa := |p - n.a.toNat|
     let pb := |p - n.b.toNat|
     let pc := |p - n.c.toNat|
     (pa ≤ pb → pa ≤ pc → predPaeth n = n.a) ∧
     (¬ (pa ≤ pb ∧ pa ≤ pc) → pb ≤ pc → predPaeth n = n.b) ∧
     (¬ (pa ≤ pb ∧ pa ≤ pc) → ¬ pb ≤ pc → predPaeth n = n.c) ∧
     |p - (predPaeth n).toNat| ≤ pa ∧ |p - (predPaeth n).toNat| ≤ pb ∧ |p - (predPaeth n).toNat| ≤ pc) ∧
    predPaeth ⟨10#8, 10#8, 10#8⟩ = 10#8

/-- R89: the distances are |b - c|, |a - c| and |a + b - 2c|, exact, in the stated ranges, so the predictor can be computed from them
without forming p. -/
def Obligations.PaethDistancesNeedNoPredictor : Prop :=
  ∀ n : Neighbours,
    -255 ≤ paethP n ∧ paethP n ≤ 510 ∧
      (paethDist n n.a : Int) = |(n.b.toNat : Int) - n.c.toNat| ∧ paethDist n n.a ≤ 255 ∧
      (paethDist n n.b : Int) = |(n.a.toNat : Int) - n.c.toNat| ∧ paethDist n n.b ≤ 255 ∧
      (paethDist n n.c : Int) = |(n.a.toNat : Int) + n.b.toNat - 2 * n.c.toNat| ∧ paethDist n n.c ≤ 510

/-- R91: the boundary identities, and the ties that decide. -/
def Obligations.BoundaryIdentitiesOfTheFilters : Prop :=
  (∀ x a : Byte,
    (recon predSub x ⟨a, 0#8, 0#8⟩).toNat = (x.toNat + a.toNat) % 256 ∧ recon predUp x ⟨a, 0#8, 0#8⟩ = x ∧
    (recon predAverage x ⟨a, 0#8, 0#8⟩).toNat = (x.toNat + a.toNat / 2) % 256 ∧
    (recon predPaeth x ⟨a, 0#8, 0#8⟩).toNat = (x.toNat + a.toNat) % 256) ∧
  (∀ x b : Byte,
    recon predSub x ⟨0#8, b, 0#8⟩ = x ∧ (recon predUp x ⟨0#8, b, 0#8⟩).toNat = (x.toNat + b.toNat) % 256 ∧
    (recon predAverage x ⟨0#8, b, 0#8⟩).toNat = (x.toNat + b.toNat / 2) % 256 ∧
    (recon predPaeth x ⟨0#8, b, 0#8⟩).toNat = (x.toNat + b.toNat) % 256) ∧
  (∀ x : Byte,
    recon predSub x ⟨0#8, 0#8, 0#8⟩ = x ∧ recon predUp x ⟨0#8, 0#8, 0#8⟩ = x ∧
    recon predAverage x ⟨0#8, 0#8, 0#8⟩ = x ∧ recon predPaeth x ⟨0#8, 0#8, 0#8⟩ = x) ∧
  (∀ n : Neighbours, n.a ≠ n.b → paethDist n n.a = paethDist n n.b →
    n.a.toNat + n.b.toNat = 2 * n.c.toNat ∧ paethDist n n.c = 0 ∧ 0 < paethDist n n.a ∧ predPaeth n = n.c) ∧
  predPaeth ⟨0#8, 3#8, 2#8⟩ = 0#8 ∧ predPaeth ⟨0#8, 3#8, 1#8⟩ = 3#8

/-- 95_test_vectors E1 for one row, whatever the predictor and the row above: reconstructing a forward-filtered row gives the row
back. -/
def Obligations.RowRoundTrip : Prop :=
  ∀ (pred : Neighbours → Byte) (bpp : Nat) (above ys : List Byte),
    refRow pred bpp above (forwardRowFrom pred bpp above [] ys) = ys

/-! ## Encoding -/

/-- R64, R69: words written out from the tables of 30_encoding decode to the instructions they stand for, and the first illegal code,
the last, and the word without a command are rejected by name. -/
def Obligations.SampleWordsDecode : Prop :=
  decode (.ft8 0b00000000#8) = .ok .filterNone ∧ decode (.ft8 0b00000001#8) = .ok .filterSub ∧
    decode (.ft8 0b00000010#8) = .ok .filterUp ∧ decode (.ft8 0b00000011#8) = .ok .filterAverage ∧
    decode (.ft8 0b00000100#8) = .ok .filterPaeth ∧
    decode (.ft8 0x05#8) = .error (.unknownFilterType 0x05#8) ∧
    decode (.ft8 0xFF#8) = .error (.unknownFilterType 0xFF#8) ∧
    decode (.ctrl 0x00000001#32) = .ok (.start false 0#32) ∧ decode (.ctrl 0x00000005#32) = .ok (.start true 0#32) ∧
    decode (.ctrl 0x00000007#32) = .ok (.start true 2#32) ∧
    decode (.ctrl 0x00000002#32) = .ok (.clear false 0#32) ∧ decode (.ctrl 0x00000006#32) = .ok (.clear true 0#32) ∧
    decode (.ctrl 0x00000004#32) = .error (.noCommand 0x00000004#32)

/-- Decoding the encoding of any well-formed instruction gives it back, with every operand at every value the encoding admits. -/
def Obligations.DecodeOfEncodeIsTheInstruction : Prop :=
  ∀ i : Instr, i.wf = true → decode (encode i) = .ok i

/-- Whatever decodes is well formed and encodes to the bits it was read from, so no bit is dropped. That no two CTRL words are one
instruction, though R69 ignores bits 31..3, is the model's choice: its terms carry the ignored bits (log entry 11). -/
def Obligations.EncodeOfDecodeIsTheWord : Prop :=
  ∀ (e : Encoded) (i : Instr), decode e = .ok i → i.wf = true ∧ encode i = e

/-! ## The step -/

/-- A step runs the decoded instruction: the offered filter-type byte, consumed; the latched code of a row whose data step is
enabled; the word written to CTRL, taken from the host's plan (R61, R66, R69, R94, R96). -/
def Obligations.StepRunsTheDecodedInstruction : Prop :=
  ∀ (s : State) (i : Instr),
    (∀ u v rest, s.StreamTurn u → s.blk.state = .filter → s.host.offering = true → s.host.input = v :: rest →
      decode (.ft8 v) = .ok i → step s = exec i (u.setInput rest)) ∧
    (∀ u x rest, s.StreamTurn u → s.DataEnabled x rest → decode (.ft8 (s.blk.ftCur.zeroExtend 8)) = .ok i →
      step s = exec i u) ∧
    (∀ es v, s.host.sched = .write 32 0x00 v :: es → decode (.ctrl v) = .ok i → step s = exec i (s.setSched es))

/-- The placing of an instruction for the next step: the step after it runs what the bits decode to (log entry 3). -/
def Obligations.PlacedInstructionRunsNext : Prop :=
  ∀ (s : State) (i : Instr) (w : Nat),
    (decodeTableWord 8 w = some i → ∃ u, u.blk.state = .filter ∧ u.host.input = s.host.input ∧
      u.host.output = s.host.output ∧ step (s.withFetchWord 8 w) = exec i u) ∧
    (decodeTableWord 32 w = some i → step (s.withFetchWord 32 w) = exec i s)

/-! ## Invariants and whole-machine rules -/

/-- The invariant holds at reset, and so does R42 as the spec lists it (R37, R42). -/
def Obligations.InvariantHoldsAtReset : Prop := State.reset.Inv ∧ State.reset.blk.Listed State.reset.maxRowBytes

/-- R42 with R24, R26, R31 and R32: every step keeps the invariant. Its DONE clause speaks of the configuration the session ran with
(log entry 9). -/
def Obligations.EveryStepKeepsTheInvariant : Prop :=
  ∀ s t : State, s.Inv → step s = .next t → t.Inv

/-- R42 as the spec lists it, over the current registers: every step from a state that meets the invariant leads to a state in which all
its lines hold. The one exception is a state in DONE whose WIDTH, HEIGHT or BPP the host has written since the session ended (R116,
R142): the step from DONE to DONE is that write, or the write came before it (log entry 9). -/
def Obligations.ListedInvariantsHoldUntilReconfigured : Prop :=
  ∀ s t : State, s.Inv → step s = .next t →
    t.blk.Listed t.maxRowBytes ∨
      (s.blk.state = .done ∧ t.blk.state = .done ∧
        (¬ s.blk.Listed s.maxRowBytes ∨
          ∃ es off, ∃ v : Word, s.host.sched = .write 32 off v :: es ∧ (off = 0x08 ∨ off = 0x0C ∨ off = 0x10)))

/-- R82, R35: from a state that meets the invariant no step reads a cell without a value, or faults in any other way. -/
def Obligations.NoStepFaults : Prop :=
  ∀ (s : State) (f : Fault), s.Inv → step s ≠ .fault f

/-- The canonical form of the row buffers is kept by every step, from every state whatever else it holds. -/
def Obligations.EveryStepKeepsTheRowBufferForm : Prop :=
  ∀ s t : State, RowBuf.wf s.blk.prev → RowBuf.wf s.blk.cur → step s = .next t →
    RowBuf.wf t.blk.prev ∧ RowBuf.wf t.blk.cur

/-- No step changes MAX_ROW_BYTES (R8: fixed per instance; log entry 1). -/
def Obligations.NoStepChangesTheBufferSize : Prop :=
  ∀ s t : State, step s = .next t → t.maxRowBytes = s.maxRowBytes

/-- R36: while BUSY, nothing but a reset changes WIDTH, HEIGHT, BPP or INLEN. -/
def Obligations.ConfigurationIsFixedWhileBusy : Prop :=
  ∀ s t : State, s.blk.busy = true → (∀ es, s.host.sched ≠ .reset :: es) → step s = .next t →
    t.blk.width = s.blk.width ∧ t.blk.height = s.blk.height ∧ t.blk.bpp = s.blk.bpp ∧ t.blk.inlen = s.blk.inlen

/-- R113, R111, R138: a running session is abandoned by nothing but a reset. Any other step leaves it running or ends it in DONE or
ERROR, and it ends only in a step that consumes a byte. -/
def Obligations.NothingButResetAbandonsASession : Prop :=
  ∀ s t : State, s.blk.busy = true → (∀ es, s.host.sched ≠ .reset :: es) → step s = .next t →
    t.blk.busy = true ∨
      ((t.blk.state = .done ∨ t.blk.state = .error) ∧ ∃ v, s.host.input = v :: t.host.input)

/-- R53, R44: a running session has consumed fewer than NEEDED bytes, so no byte beyond NEEDED is ever consumed. -/
def Obligations.ARunningSessionHasConsumedFewerThanNeeded : Prop :=
  ∀ s : State, s.Inv → s.blk.busy = true → s.blk.consumed < s.blk.needed

/-- R126, R98: DONE and ERROR are left, and an outcome replaced, only by a START, a CLEAR or a reset. -/
def Obligations.OnlyCommandsAndResetLeaveAnOutcome : Prop :=
  ∀ s t : State, s.blk.state = .done ∨ s.blk.state = .error → step s = .next t →
    (t.blk.state = s.blk.state ∧ t.blk.errCode = s.blk.errCode ∧ t.blk.errInfo = s.blk.errInfo ∧
      t.blk.errRow = s.blk.errRow ∧ t.host.input = s.host.input ∧ t.host.output = s.host.output) ∨
    ∃ es, s.host.sched = .reset :: es ∨
      ∃ v : Word, s.host.sched = .write 32 0x00 v :: es ∧ (v.getLsbD 0 = true ∨ v.getLsbD 1 = true)

/-- R98, R42: a step that enters DONE leaves pos = (HEIGHT, 0) and OUT_COUNT = OUT_TOTAL, and no error. -/
def Obligations.DoneIsEnteredAfterTheWholeImage : Prop :=
  ∀ s t : State, s.Inv → s.blk.state ≠ .done → step s = .next t → t.blk.state = .done →
    t.blk.posRow = t.blk.height ∧ t.blk.posByte = 0#32 ∧ t.blk.outCount.toNat = t.blk.outTotal ∧
      t.blk.errCode = .noError

/-- R128: irq, which STATUS bit 9 reads, is the level IRQ_EN and (DONE or ERROR). It rises only in a step of a running session that enters DONE or ERROR, or
in a CTRL write that sets IRQ_EN. It falls only on a reset, a command, or a CTRL write that clears IRQ_EN. -/
def Obligations.InterruptLevelRisesAndFallsAsStated : Prop :=
  ∀ s t : State, step s = .next t →
    (t.blk.irq = true ↔ t.blk.irqEn = true ∧ (t.blk.state = .done ∨ t.blk.state = .error)) ∧
    t.blk.statusWord.getLsbD 9 = t.blk.irq ∧
    (s.blk.irq = false → t.blk.irq = true →
      (s.blk.busy = true ∧ s.blk.irqEn = true ∧ (t.blk.state = .done ∨ t.blk.state = .error)) ∨
        ∃ es, ∃ v : Word, s.host.sched = .write 32 0x00 v :: es ∧ v.getLsbD 2 = true) ∧
    (s.blk.irq = true → t.blk.irq = false →
      ∃ es, s.host.sched = .reset :: es ∨
        ∃ v : Word, s.host.sched = .write 32 0x00 v :: es ∧
          (v.getLsbD 0 = true ∨ v.getLsbD 1 = true ∨ v.getLsbD 2 = false))

/-- R44, R49: while a session runs, a byte leaves the host's stream exactly when the session's count of consumed bytes grows by it, and
bytes leave in order. -/
def Obligations.EveryConsumedByteIsCounted : Prop :=
  ∀ s t : State, s.Inv → s.blk.busy = true → (∀ es, s.host.sched ≠ .reset :: es) → step s = .next t →
    ∃ taken : List Byte, s.host.input = taken ++ t.host.input ∧ taken.length ≤ 1 ∧
      t.blk.consumed = s.blk.consumed + taken.length

/-- R27, R50: output is only ever appended to, and while a session runs OUT_COUNT grows by exactly the bytes delivered. -/
def Obligations.EveryDeliveredByteIsCounted : Prop :=
  ∀ s t : State, step s = .next t →
    ∃ out : List Byte, t.host.output = s.host.output ++ out ∧ out.length ≤ 1 ∧
      (s.blk.busy = false → out = []) ∧
      (s.Inv → s.blk.busy = true → (∀ es, s.host.sched ≠ .reset :: es) →
        t.blk.outCount.toNat = s.blk.outCount.toNat + out.length)

/-- R93, R149: a session whose host offers every byte up to NEEDED and accepts every byte ends, in DONE or by UnknownFilterType, after
at most one step for each byte still needed. -/
def Obligations.ASuppliedSessionEnds : Prop :=
  ∀ s : State, s.Inv → s.blk.busy = true → s.FreeRunning →
    s.blk.needed ≤ s.blk.consumed + s.host.input.length →
    ∃ k t, k ≤ s.blk.needed - s.blk.consumed ∧ runSteps k s = .next t ∧
      (t.blk.state = .done ∨ (t.blk.state = .error ∧ t.blk.errCode = .unknownFilterType))

/-! ## Refinement and isolation -/

/-- R62, R93, R97: from FILTER, the row of the stream headed by a legal byte is reconstructed in 1 + ROW_BYTES steps to the reference
row over the previous row, which becomes the previous row. -/
def Obligations.RowMatchesTheReference : Prop :=
  ∀ (s : State) (v : Byte) (xs rest above : List Byte), s.Inv → s.blk.state = .filter → s.FreeRunning →
    s.blk.PrevHolds above → v.toNat ≤ 4 → xs.length = s.blk.rowBytes → s.host.input = v :: xs ++ rest →
    ∃ t, runSteps (1 + s.blk.rowBytes) s = .next t ∧ t.host.input = rest ∧
      t.host.output = s.host.output ++ refRow (predictorOf v) s.blk.bpp.toNat above xs ∧
      t.blk.PrevHolds (refRow (predictorOf v) s.blk.bpp.toNat above xs) ∧
      t.blk.posRow.toNat = s.blk.posRow.toNat + 1 ∧
      (t.blk.state = if s.blk.posRow.toNat + 1 = s.blk.height.toNat then .done else .filter)

/-- R51, R52, R98, R99: an accepted session whose filter-type bytes are all legal takes NEEDED steps, consumes NEEDED bytes, leaves the
rest with the host, and delivers the reference image, OUT_TOTAL bytes, in DONE. -/
def Obligations.ImageMatchesTheReference : Prop :=
  ∀ (s : State) (rows : List (Byte × List Byte)) (rest : List Byte), s.Inv → s.blk.state = .filter → s.blk.posRow = 0#32 →
    s.FreeRunning → rows.length = s.blk.height.toNat →
    (∀ row ∈ rows, row.1.toNat ≤ 4 ∧ row.2.length = s.blk.rowBytes) → s.host.input = imageStream rows ++ rest →
    ∃ t, runSteps s.blk.needed s = .next t ∧ t.blk.state = .done ∧ t.host.input = rest ∧
      t.host.output = s.host.output ++ refImage s.blk.bpp.toNat [] rows ∧
      (refImage s.blk.bpp.toNat [] rows).length = s.blk.outTotal

/-- 95_test_vectors E1 on the machine: the stream of a forward-filtered image, each row with any of the five filters, is given back as
the image, for every width, height and legal BPP. -/
def Obligations.ImageRoundTripOnTheMachine : Prop :=
  ∀ (s : State) (image : List (Byte × List Byte)) (rest : List Byte), s.Inv → s.blk.state = .filter →
    s.blk.posRow = 0#32 → s.FreeRunning → image.length = s.blk.height.toNat →
    (∀ row ∈ image, row.1.toNat ≤ 4 ∧ row.2.length = s.blk.rowBytes) →
    s.host.input = imageStream (forwardImage s.blk.bpp.toNat [] image) ++ rest →
    ∃ t, runSteps s.blk.needed s = .next t ∧ t.blk.state = .done ∧ t.host.input = rest ∧
      t.host.output = s.host.output ++ image.flatMap (fun row => row.2)

/-- R41, R152: two machines with the same configuration, both not BUSY and whatever earlier sessions left in them, are alike after the
same START. -/
def Obligations.StartForgetsEarlierSessions : Prop :=
  ∀ (s t : State) (irqEn : Bool) (ignored : Word), s.blk.busy = false → t.blk.busy = false → s.host = t.host →
    s.maxRowBytes = t.maxRowBytes → s.blk.width = t.blk.width → s.blk.height = t.blk.height → s.blk.bpp = t.blk.bpp →
    s.blk.inlen = t.blk.inlen →
    ∃ s' t', exec (.start irqEn ignored) s = .next s' ∧ exec (.start irqEn ignored) t = .next t' ∧ s'.Alike t'

/-- R152: machines that are alike stay alike along every run, so that no byte delivered and no register read tells them apart: what an
earlier session left in PREV is never observed. -/
def Obligations.SessionsAreIsolated : Prop :=
  ∀ (k : Nat) (s t s' : State), s.Inv → s.Alike t → runSteps k s = .next s' →
    ∃ t', runSteps k t = .next t' ∧ s'.Alike t' ∧ s'.host.output = t'.host.output ∧
      s'.host.readData = t'.host.readData
end

