-- ==== Sys2Proof/Laws/State.lean ====
section
/-!
SUPPORT. For each named update of the block and of the machine, what every field holds after it: one lemma per field per update, true
by rfl.
-/

namespace Sys2Proof.Machine

/-! ## The block -/

section setIrqEn
variable (k : Block) (v : Bool)

@[simp] theorem setIrqEn_irqEn : (k.setIrqEn v).irqEn = v := rfl
@[simp] theorem setIrqEn_state : (k.setIrqEn v).state = k.state := rfl
@[simp] theorem setIrqEn_errCode : (k.setIrqEn v).errCode = k.errCode := rfl
@[simp] theorem setIrqEn_width : (k.setIrqEn v).width = k.width := rfl
@[simp] theorem setIrqEn_height : (k.setIrqEn v).height = k.height := rfl
@[simp] theorem setIrqEn_bpp : (k.setIrqEn v).bpp = k.bpp := rfl
@[simp] theorem setIrqEn_inlen : (k.setIrqEn v).inlen = k.inlen := rfl
@[simp] theorem setIrqEn_errInfo : (k.setIrqEn v).errInfo = k.errInfo := rfl
@[simp] theorem setIrqEn_errRow : (k.setIrqEn v).errRow = k.errRow := rfl
@[simp] theorem setIrqEn_posRow : (k.setIrqEn v).posRow = k.posRow := rfl
@[simp] theorem setIrqEn_posByte : (k.setIrqEn v).posByte = k.posByte := rfl
@[simp] theorem setIrqEn_ftCur : (k.setIrqEn v).ftCur = k.ftCur := rfl
@[simp] theorem setIrqEn_outCount : (k.setIrqEn v).outCount = k.outCount := rfl
@[simp] theorem setIrqEn_prev : (k.setIrqEn v).prev = k.prev := rfl
@[simp] theorem setIrqEn_cur : (k.setIrqEn v).cur = k.cur := rfl

end setIrqEn

section raiseErr
variable (k : Block) (c : ErrCode) (i : Word)

@[simp] theorem raiseErr_irqEn : (k.raiseErr c i).irqEn = k.irqEn := rfl
@[simp] theorem raiseErr_state : (k.raiseErr c i).state = .error := rfl
@[simp] theorem raiseErr_errCode : (k.raiseErr c i).errCode = c := rfl
@[simp] theorem raiseErr_width : (k.raiseErr c i).width = k.width := rfl
@[simp] theorem raiseErr_height : (k.raiseErr c i).height = k.height := rfl
@[simp] theorem raiseErr_bpp : (k.raiseErr c i).bpp = k.bpp := rfl
@[simp] theorem raiseErr_inlen : (k.raiseErr c i).inlen = k.inlen := rfl
@[simp] theorem raiseErr_errInfo : (k.raiseErr c i).errInfo = i := rfl
@[simp] theorem raiseErr_errRow : (k.raiseErr c i).errRow = k.errRow := rfl
@[simp] theorem raiseErr_posRow : (k.raiseErr c i).posRow = k.posRow := rfl
@[simp] theorem raiseErr_posByte : (k.raiseErr c i).posByte = k.posByte := rfl
@[simp] theorem raiseErr_ftCur : (k.raiseErr c i).ftCur = k.ftCur := rfl
@[simp] theorem raiseErr_outCount : (k.raiseErr c i).outCount = k.outCount := rfl
@[simp] theorem raiseErr_prev : (k.raiseErr c i).prev = k.prev := rfl
@[simp] theorem raiseErr_cur : (k.raiseErr c i).cur = k.cur := rfl

end raiseErr

section setErrRow
variable (k : Block) (r : Word)

@[simp] theorem setErrRow_irqEn : (k.setErrRow r).irqEn = k.irqEn := rfl
@[simp] theorem setErrRow_state : (k.setErrRow r).state = k.state := rfl
@[simp] theorem setErrRow_errCode : (k.setErrRow r).errCode = k.errCode := rfl
@[simp] theorem setErrRow_width : (k.setErrRow r).width = k.width := rfl
@[simp] theorem setErrRow_height : (k.setErrRow r).height = k.height := rfl
@[simp] theorem setErrRow_bpp : (k.setErrRow r).bpp = k.bpp := rfl
@[simp] theorem setErrRow_inlen : (k.setErrRow r).inlen = k.inlen := rfl
@[simp] theorem setErrRow_errInfo : (k.setErrRow r).errInfo = k.errInfo := rfl
@[simp] theorem setErrRow_errRow : (k.setErrRow r).errRow = r := rfl
@[simp] theorem setErrRow_posRow : (k.setErrRow r).posRow = k.posRow := rfl
@[simp] theorem setErrRow_posByte : (k.setErrRow r).posByte = k.posByte := rfl
@[simp] theorem setErrRow_ftCur : (k.setErrRow r).ftCur = k.ftCur := rfl
@[simp] theorem setErrRow_outCount : (k.setErrRow r).outCount = k.outCount := rfl
@[simp] theorem setErrRow_prev : (k.setErrRow r).prev = k.prev := rfl
@[simp] theorem setErrRow_cur : (k.setErrRow r).cur = k.cur := rfl

end setErrRow

section clearErr
variable (k : Block)

@[simp] theorem clearErr_irqEn : (k.clearErr).irqEn = k.irqEn := rfl
@[simp] theorem clearErr_state : (k.clearErr).state = k.state := rfl
@[simp] theorem clearErr_errCode : (k.clearErr).errCode = .noError := rfl
@[simp] theorem clearErr_width : (k.clearErr).width = k.width := rfl
@[simp] theorem clearErr_height : (k.clearErr).height = k.height := rfl
@[simp] theorem clearErr_bpp : (k.clearErr).bpp = k.bpp := rfl
@[simp] theorem clearErr_inlen : (k.clearErr).inlen = k.inlen := rfl
@[simp] theorem clearErr_errInfo : (k.clearErr).errInfo = 0#32 := rfl
@[simp] theorem clearErr_errRow : (k.clearErr).errRow = 0#32 := rfl
@[simp] theorem clearErr_posRow : (k.clearErr).posRow = k.posRow := rfl
@[simp] theorem clearErr_posByte : (k.clearErr).posByte = k.posByte := rfl
@[simp] theorem clearErr_ftCur : (k.clearErr).ftCur = k.ftCur := rfl
@[simp] theorem clearErr_outCount : (k.clearErr).outCount = k.outCount := rfl
@[simp] theorem clearErr_prev : (k.clearErr).prev = k.prev := rfl
@[simp] theorem clearErr_cur : (k.clearErr).cur = k.cur := rfl

end clearErr

section setState
variable (k : Block) (st : SessionState)

@[simp] theorem setState_irqEn : (k.setState st).irqEn = k.irqEn := rfl
@[simp] theorem setState_state : (k.setState st).state = st := rfl
@[simp] theorem setState_errCode : (k.setState st).errCode = k.errCode := rfl
@[simp] theorem setState_width : (k.setState st).width = k.width := rfl
@[simp] theorem setState_height : (k.setState st).height = k.height := rfl
@[simp] theorem setState_bpp : (k.setState st).bpp = k.bpp := rfl
@[simp] theorem setState_inlen : (k.setState st).inlen = k.inlen := rfl
@[simp] theorem setState_errInfo : (k.setState st).errInfo = k.errInfo := rfl
@[simp] theorem setState_errRow : (k.setState st).errRow = k.errRow := rfl
@[simp] theorem setState_posRow : (k.setState st).posRow = k.posRow := rfl
@[simp] theorem setState_posByte : (k.setState st).posByte = k.posByte := rfl
@[simp] theorem setState_ftCur : (k.setState st).ftCur = k.ftCur := rfl
@[simp] theorem setState_outCount : (k.setState st).outCount = k.outCount := rfl
@[simp] theorem setState_prev : (k.setState st).prev = k.prev := rfl
@[simp] theorem setState_cur : (k.setState st).cur = k.cur := rfl

end setState

section clearSession
variable (k : Block)

@[simp] theorem clearSession_irqEn : (k.clearSession).irqEn = k.irqEn := rfl
@[simp] theorem clearSession_state : (k.clearSession).state = k.state := rfl
@[simp] theorem clearSession_errCode : (k.clearSession).errCode = k.errCode := rfl
@[simp] theorem clearSession_width : (k.clearSession).width = k.width := rfl
@[simp] theorem clearSession_height : (k.clearSession).height = k.height := rfl
@[simp] theorem clearSession_bpp : (k.clearSession).bpp = k.bpp := rfl
@[simp] theorem clearSession_inlen : (k.clearSession).inlen = k.inlen := rfl
@[simp] theorem clearSession_errInfo : (k.clearSession).errInfo = k.errInfo := rfl
@[simp] theorem clearSession_errRow : (k.clearSession).errRow = k.errRow := rfl
@[simp] theorem clearSession_posRow : (k.clearSession).posRow = 0#32 := rfl
@[simp] theorem clearSession_posByte : (k.clearSession).posByte = 0#32 := rfl
@[simp] theorem clearSession_ftCur : (k.clearSession).ftCur = 0#3 := rfl
@[simp] theorem clearSession_outCount : (k.clearSession).outCount = 0#64 := rfl
@[simp] theorem clearSession_prev : (k.clearSession).prev = k.prev := rfl
@[simp] theorem clearSession_cur : (k.clearSession).cur = [] := rfl

end clearSession

section latchFilter
variable (k : Block) (c : BitVec 3)

@[simp] theorem latchFilter_irqEn : (k.latchFilter c).irqEn = k.irqEn := rfl
@[simp] theorem latchFilter_state : (k.latchFilter c).state = .data := rfl
@[simp] theorem latchFilter_errCode : (k.latchFilter c).errCode = k.errCode := rfl
@[simp] theorem latchFilter_width : (k.latchFilter c).width = k.width := rfl
@[simp] theorem latchFilter_height : (k.latchFilter c).height = k.height := rfl
@[simp] theorem latchFilter_bpp : (k.latchFilter c).bpp = k.bpp := rfl
@[simp] theorem latchFilter_inlen : (k.latchFilter c).inlen = k.inlen := rfl
@[simp] theorem latchFilter_errInfo : (k.latchFilter c).errInfo = k.errInfo := rfl
@[simp] theorem latchFilter_errRow : (k.latchFilter c).errRow = k.errRow := rfl
@[simp] theorem latchFilter_posRow : (k.latchFilter c).posRow = k.posRow := rfl
@[simp] theorem latchFilter_posByte : (k.latchFilter c).posByte = k.posByte := rfl
@[simp] theorem latchFilter_ftCur : (k.latchFilter c).ftCur = c := rfl
@[simp] theorem latchFilter_outCount : (k.latchFilter c).outCount = k.outCount := rfl
@[simp] theorem latchFilter_prev : (k.latchFilter c).prev = k.prev := rfl
@[simp] theorem latchFilter_cur : (k.latchFilter c).cur = k.cur := rfl

end latchFilter

section countOutput
variable (k : Block)

@[simp] theorem countOutput_irqEn : (k.countOutput).irqEn = k.irqEn := rfl
@[simp] theorem countOutput_state : (k.countOutput).state = k.state := rfl
@[simp] theorem countOutput_errCode : (k.countOutput).errCode = k.errCode := rfl
@[simp] theorem countOutput_width : (k.countOutput).width = k.width := rfl
@[simp] theorem countOutput_height : (k.countOutput).height = k.height := rfl
@[simp] theorem countOutput_bpp : (k.countOutput).bpp = k.bpp := rfl
@[simp] theorem countOutput_inlen : (k.countOutput).inlen = k.inlen := rfl
@[simp] theorem countOutput_errInfo : (k.countOutput).errInfo = k.errInfo := rfl
@[simp] theorem countOutput_errRow : (k.countOutput).errRow = k.errRow := rfl
@[simp] theorem countOutput_posRow : (k.countOutput).posRow = k.posRow := rfl
@[simp] theorem countOutput_posByte : (k.countOutput).posByte = k.posByte := rfl
@[simp] theorem countOutput_ftCur : (k.countOutput).ftCur = k.ftCur := rfl
@[simp] theorem countOutput_outCount : (k.countOutput).outCount = k.outCount + 1#64 := rfl
@[simp] theorem countOutput_prev : (k.countOutput).prev = k.prev := rfl
@[simp] theorem countOutput_cur : (k.countOutput).cur = k.cur := rfl

end countOutput

section setCur
variable (k : Block) (b : RowBuf)

@[simp] theorem setCur_irqEn : (k.setCur b).irqEn = k.irqEn := rfl
@[simp] theorem setCur_state : (k.setCur b).state = k.state := rfl
@[simp] theorem setCur_errCode : (k.setCur b).errCode = k.errCode := rfl
@[simp] theorem setCur_width : (k.setCur b).width = k.width := rfl
@[simp] theorem setCur_height : (k.setCur b).height = k.height := rfl
@[simp] theorem setCur_bpp : (k.setCur b).bpp = k.bpp := rfl
@[simp] theorem setCur_inlen : (k.setCur b).inlen = k.inlen := rfl
@[simp] theorem setCur_errInfo : (k.setCur b).errInfo = k.errInfo := rfl
@[simp] theorem setCur_errRow : (k.setCur b).errRow = k.errRow := rfl
@[simp] theorem setCur_posRow : (k.setCur b).posRow = k.posRow := rfl
@[simp] theorem setCur_posByte : (k.setCur b).posByte = k.posByte := rfl
@[simp] theorem setCur_ftCur : (k.setCur b).ftCur = k.ftCur := rfl
@[simp] theorem setCur_outCount : (k.setCur b).outCount = k.outCount := rfl
@[simp] theorem setCur_prev : (k.setCur b).prev = k.prev := rfl
@[simp] theorem setCur_cur : (k.setCur b).cur = b := rfl

end setCur

section nextByte
variable (k : Block)

@[simp] theorem nextByte_irqEn : (k.nextByte).irqEn = k.irqEn := rfl
@[simp] theorem nextByte_state : (k.nextByte).state = k.state := rfl
@[simp] theorem nextByte_errCode : (k.nextByte).errCode = k.errCode := rfl
@[simp] theorem nextByte_width : (k.nextByte).width = k.width := rfl
@[simp] theorem nextByte_height : (k.nextByte).height = k.height := rfl
@[simp] theorem nextByte_bpp : (k.nextByte).bpp = k.bpp := rfl
@[simp] theorem nextByte_inlen : (k.nextByte).inlen = k.inlen := rfl
@[simp] theorem nextByte_errInfo : (k.nextByte).errInfo = k.errInfo := rfl
@[simp] theorem nextByte_errRow : (k.nextByte).errRow = k.errRow := rfl
@[simp] theorem nextByte_posRow : (k.nextByte).posRow = k.posRow := rfl
@[simp] theorem nextByte_posByte : (k.nextByte).posByte = k.posByte + 1#32 := rfl
@[simp] theorem nextByte_ftCur : (k.nextByte).ftCur = k.ftCur := rfl
@[simp] theorem nextByte_outCount : (k.nextByte).outCount = k.outCount := rfl
@[simp] theorem nextByte_prev : (k.nextByte).prev = k.prev := rfl
@[simp] theorem nextByte_cur : (k.nextByte).cur = k.cur := rfl

end nextByte

section nextRow
variable (k : Block) (p : RowBuf)

@[simp] theorem nextRow_irqEn : (k.nextRow p).irqEn = k.irqEn := rfl
@[simp] theorem nextRow_state : (k.nextRow p).state = if k.posRow + 1#32 = k.height then .done else .filter := rfl
@[simp] theorem nextRow_errCode : (k.nextRow p).errCode = k.errCode := rfl
@[simp] theorem nextRow_width : (k.nextRow p).width = k.width := rfl
@[simp] theorem nextRow_height : (k.nextRow p).height = k.height := rfl
@[simp] theorem nextRow_bpp : (k.nextRow p).bpp = k.bpp := rfl
@[simp] theorem nextRow_inlen : (k.nextRow p).inlen = k.inlen := rfl
@[simp] theorem nextRow_errInfo : (k.nextRow p).errInfo = k.errInfo := rfl
@[simp] theorem nextRow_errRow : (k.nextRow p).errRow = k.errRow := rfl
@[simp] theorem nextRow_posRow : (k.nextRow p).posRow = k.posRow + 1#32 := rfl
@[simp] theorem nextRow_posByte : (k.nextRow p).posByte = 0#32 := rfl
@[simp] theorem nextRow_ftCur : (k.nextRow p).ftCur = k.ftCur := rfl
@[simp] theorem nextRow_outCount : (k.nextRow p).outCount = k.outCount := rfl
@[simp] theorem nextRow_prev : (k.nextRow p).prev = p := rfl
@[simp] theorem nextRow_cur : (k.nextRow p).cur = [] := rfl

end nextRow

/-! ## The machine -/

section setBlk
variable (s : State) (b : Block)

@[simp] theorem setBlk_maxRowBytes : (s.setBlk b).maxRowBytes = s.maxRowBytes := rfl
@[simp] theorem setBlk_blk : (s.setBlk b).blk = b := rfl
@[simp] theorem setBlk_sched : (s.setBlk b).host.sched = s.host.sched := rfl
@[simp] theorem setBlk_input : (s.setBlk b).host.input = s.host.input := rfl
@[simp] theorem setBlk_offering : (s.setBlk b).host.offering = s.host.offering := rfl
@[simp] theorem setBlk_accepting : (s.setBlk b).host.accepting = s.host.accepting := rfl
@[simp] theorem setBlk_output : (s.setBlk b).host.output = s.host.output := rfl
@[simp] theorem setBlk_readData : (s.setBlk b).host.readData = s.host.readData := rfl
@[simp] theorem setBlk_host : (s.setBlk b).host = s.host := rfl

end setBlk

section setInput
variable (s : State) (rest : List Byte)

@[simp] theorem setInput_maxRowBytes : (s.setInput rest).maxRowBytes = s.maxRowBytes := rfl
@[simp] theorem setInput_blk : (s.setInput rest).blk = s.blk := rfl
@[simp] theorem setInput_sched : (s.setInput rest).host.sched = s.host.sched := rfl
@[simp] theorem setInput_input : (s.setInput rest).host.input = rest := rfl
@[simp] theorem setInput_offering : (s.setInput rest).host.offering = s.host.offering := rfl
@[simp] theorem setInput_accepting : (s.setInput rest).host.accepting = s.host.accepting := rfl
@[simp] theorem setInput_output : (s.setInput rest).host.output = s.host.output := rfl
@[simp] theorem setInput_readData : (s.setInput rest).host.readData = s.host.readData := rfl

end setInput

section outWrite
variable (s : State) (y : Byte)

@[simp] theorem outWrite_maxRowBytes : (s.outWrite y).maxRowBytes = s.maxRowBytes := rfl
@[simp] theorem outWrite_blk : (s.outWrite y).blk = s.blk := rfl
@[simp] theorem outWrite_sched : (s.outWrite y).host.sched = s.host.sched := rfl
@[simp] theorem outWrite_input : (s.outWrite y).host.input = s.host.input := rfl
@[simp] theorem outWrite_offering : (s.outWrite y).host.offering = s.host.offering := rfl
@[simp] theorem outWrite_accepting : (s.outWrite y).host.accepting = s.host.accepting := rfl
@[simp] theorem outWrite_output : (s.outWrite y).host.output = s.host.output ++ [y] := rfl
@[simp] theorem outWrite_readData : (s.outWrite y).host.readData = s.host.readData := rfl

end outWrite

section giveRead
variable (s : State) (v : Word)

@[simp] theorem giveRead_maxRowBytes : (s.giveRead v).maxRowBytes = s.maxRowBytes := rfl
@[simp] theorem giveRead_blk : (s.giveRead v).blk = s.blk := rfl
@[simp] theorem giveRead_sched : (s.giveRead v).host.sched = s.host.sched := rfl
@[simp] theorem giveRead_input : (s.giveRead v).host.input = s.host.input := rfl
@[simp] theorem giveRead_offering : (s.giveRead v).host.offering = s.host.offering := rfl
@[simp] theorem giveRead_accepting : (s.giveRead v).host.accepting = s.host.accepting := rfl
@[simp] theorem giveRead_output : (s.giveRead v).host.output = s.host.output := rfl
@[simp] theorem giveRead_readData : (s.giveRead v).host.readData = s.host.readData ++ [v] := rfl

end giveRead

section setSched
variable (s : State) (es : List HostEvent)

@[simp] theorem setSched_maxRowBytes : (s.setSched es).maxRowBytes = s.maxRowBytes := rfl
@[simp] theorem setSched_blk : (s.setSched es).blk = s.blk := rfl
@[simp] theorem setSched_sched : (s.setSched es).host.sched = es := rfl
@[simp] theorem setSched_input : (s.setSched es).host.input = s.host.input := rfl
@[simp] theorem setSched_offering : (s.setSched es).host.offering = s.host.offering := rfl
@[simp] theorem setSched_accepting : (s.setSched es).host.accepting = s.host.accepting := rfl
@[simp] theorem setSched_output : (s.setSched es).host.output = s.host.output := rfl
@[simp] theorem setSched_readData : (s.setSched es).host.readData = s.host.readData := rfl

end setSched

section setLines
variable (s : State) (o a : Bool)

@[simp] theorem setLines_maxRowBytes : (s.setLines o a).maxRowBytes = s.maxRowBytes := rfl
@[simp] theorem setLines_blk : (s.setLines o a).blk = s.blk := rfl
@[simp] theorem setLines_sched : (s.setLines o a).host.sched = s.host.sched := rfl
@[simp] theorem setLines_input : (s.setLines o a).host.input = s.host.input := rfl
@[simp] theorem setLines_offering : (s.setLines o a).host.offering = o := rfl
@[simp] theorem setLines_accepting : (s.setLines o a).host.accepting = a := rfl
@[simp] theorem setLines_output : (s.setLines o a).host.output = s.host.output := rfl
@[simp] theorem setLines_readData : (s.setLines o a).host.readData = s.host.readData := rfl

end setLines

/-! ## The reset state (R37) -/

@[simp] theorem reset_irqEn : Block.reset.irqEn = false := rfl
@[simp] theorem reset_state : Block.reset.state = .idle := rfl
@[simp] theorem reset_errCode : Block.reset.errCode = .noError := rfl
@[simp] theorem reset_width : Block.reset.width = 0#32 := rfl
@[simp] theorem reset_height : Block.reset.height = 0#32 := rfl
@[simp] theorem reset_bpp : Block.reset.bpp = 0#3 := rfl
@[simp] theorem reset_inlen : Block.reset.inlen = 0#64 := rfl
@[simp] theorem reset_errInfo : Block.reset.errInfo = 0#32 := rfl
@[simp] theorem reset_errRow : Block.reset.errRow = 0#32 := rfl
@[simp] theorem reset_posRow : Block.reset.posRow = 0#32 := rfl
@[simp] theorem reset_posByte : Block.reset.posByte = 0#32 := rfl
@[simp] theorem reset_ftCur : Block.reset.ftCur = 0#3 := rfl
@[simp] theorem reset_outCount : Block.reset.outCount = 0#64 := rfl
@[simp] theorem reset_prev : Block.reset.prev = [] := rfl
@[simp] theorem reset_cur : Block.reset.cur = [] := rfl

/-! ## Computed quantities depend on few fields -/

theorem rowBytes_congr {k l : Block} (hw : k.width = l.width) (hb : k.bpp = l.bpp) : k.rowBytes = l.rowBytes := by
  simp [Block.rowBytes, hw, hb]

theorem needed_congr {k l : Block} (hh : k.height = l.height) (hw : k.width = l.width) (hb : k.bpp = l.bpp) :
    k.needed = l.needed := by
  simp [Block.needed, hh, rowBytes_congr hw hb]

theorem busy_iff (k : Block) : k.busy = true ↔ k.state = .filter ∨ k.state = .data := by
  cases h : k.state <;> simp [Block.busy, h]

theorem irq_iff (k : Block) : k.irq = true ↔ k.irqEn = true ∧ (k.state = .done ∨ k.state = .error) := by
  cases h : k.state <;> simp [Block.irq, h]

@[simp] theorem rowBytes_setIrqEn (k : Block) (v : Bool) : (k.setIrqEn v).rowBytes = k.rowBytes := rfl
@[simp] theorem rowBytes_raiseErr (k : Block) (c : ErrCode) (i : Word) : (k.raiseErr c i).rowBytes = k.rowBytes := rfl
@[simp] theorem rowBytes_setErrRow (k : Block) (r : Word) : (k.setErrRow r).rowBytes = k.rowBytes := rfl
@[simp] theorem rowBytes_clearErr (k : Block) : k.clearErr.rowBytes = k.rowBytes := rfl
@[simp] theorem rowBytes_setState (k : Block) (st : SessionState) : (k.setState st).rowBytes = k.rowBytes := rfl
@[simp] theorem rowBytes_clearSession (k : Block) : k.clearSession.rowBytes = k.rowBytes := rfl
@[simp] theorem rowBytes_latchFilter (k : Block) (c : BitVec 3) : (k.latchFilter c).rowBytes = k.rowBytes := rfl
@[simp] theorem rowBytes_countOutput (k : Block) : k.countOutput.rowBytes = k.rowBytes := rfl
@[simp] theorem rowBytes_setCur (k : Block) (b : RowBuf) : (k.setCur b).rowBytes = k.rowBytes := rfl
@[simp] theorem rowBytes_nextByte (k : Block) : k.nextByte.rowBytes = k.rowBytes := rfl
@[simp] theorem rowBytes_nextRow (k : Block) (p : RowBuf) : (k.nextRow p).rowBytes = k.rowBytes := rfl

end Sys2Proof.Machine
end

