-- ==== Sys2Proof/Laws/Commands.lean ====
section
/-!
SUPPORT. What the START checks find (43_host_commands R109, R110) and what an accepted START leaves.
-/

namespace Sys2Proof.Machine

/-- No check fails exactly where the configuration is legal and the input long enough. -/
theorem startCheck_none {cap : Nat} {k : Block} : startCheck cap k = none ↔ k.ConfigLegal cap := by
  have hzero : ∀ w : Word, w = 0#32 ↔ w.toNat = 0 := fun w => by
    constructor
    · rintro rfl; rfl
    · intro h; exact BitVec.eq_of_toNat_eq (by simpa using h)
  unfold startCheck
  constructor
  · intro h
    split at h; · simp at h
    split at h; · simp at h
    split at h; · simp at h
    split at h; · simp at h
    split at h; · simp at h
    rename_i h1 h2 h3 h4 h5
    refine ⟨?_, ?_, ?_, by omega, by omega⟩
    · have := mt (hzero k.width).2 h1; omega
    · have := mt (hzero k.height).2 h2; omega
    · exact Decidable.not_not.1 h3
  · rintro ⟨h1, h2, h3, h4, h5⟩
    have hw : ¬ k.width = 0#32 := fun h => by rw [(hzero _).1 h] at h1; omega
    have hh : ¬ k.height = 0#32 := fun h => by rw [(hzero _).1 h] at h2; omega
    rw [if_neg hw, if_neg hh, if_neg (not_not_intro h3), if_neg (by omega), if_neg (by omega)]

/-- A failing check raises ConfigError with a reason from 1 to 4, or TruncatedScanlines with 0 (R120, R121). -/
theorem startCheck_some {cap : Nat} {k : Block} {c : ErrCode} {i : Word} (h : startCheck cap k = some (c, i)) :
    (c = .configError ∧ 1 ≤ i.toNat ∧ i.toNat ≤ 4) ∨ (c = .truncatedScanlines ∧ i = 0#32) := by
  unfold startCheck at h
  split at h
  · cases h; exact .inl ⟨rfl, by decide, by decide⟩
  split at h
  · cases h; exact .inl ⟨rfl, by decide, by decide⟩
  split at h
  · cases h; exact .inl ⟨rfl, by decide, by decide⟩
  split at h
  · cases h; exact .inl ⟨rfl, by decide, by decide⟩
  split at h
  · cases h; exact .inr ⟨rfl, rfl⟩
  · cases h

/-- Everything an accepted START can do: FILTER for a legal configuration, ERROR with what the checks found otherwise. -/
theorem start_cases (cap : Nat) (k : Block) :
    (k.ConfigLegal cap ∧ k.start cap = k.clearErr.clearSession.setState .filter) ∨
      ∃ c i, startCheck cap k = some (c, i) ∧ k.start cap = k.clearErr.clearSession.raiseErr c i := by
  cases h : startCheck cap k with
  | none => exact .inl ⟨startCheck_none.1 h, by simp [Block.start, h]⟩
  | some q => exact .inr ⟨q.1, q.2, rfl, by simp [Block.start, h]⟩

end Sys2Proof.Machine
end

