-- ==== Sys2Proof/Laws/Decode.lean ====
section
/-!
SUPPORT. What the decoder answers: the legal filter-type bytes and the command words (30_encoding R64, R65, R69).
-/

namespace Sys2Proof

/-- A filter-type byte is one of the five legal codes, or it is rejected as unknown (R64, R65). -/
theorem decodeFilter_cases (v : Byte) :
    (v = 0#8 ∧ decodeFilter v = .ok .filterNone) ∨ (v = 1#8 ∧ decodeFilter v = .ok .filterSub) ∨
      (v = 2#8 ∧ decodeFilter v = .ok .filterUp) ∨ (v = 3#8 ∧ decodeFilter v = .ok .filterAverage) ∨
      (v = 4#8 ∧ decodeFilter v = .ok .filterPaeth) ∨
      (4 < v.toNat ∧ decodeFilter v = .error (.unknownFilterType v)) := by
  unfold decodeFilter
  rcases h : v.toNat with _ | _ | _ | _ | _ | n
  · exact .inl ⟨BitVec.eq_of_toNat_eq (by simpa using h), rfl⟩
  · exact .inr (.inl ⟨BitVec.eq_of_toNat_eq (by simpa using h), rfl⟩)
  · exact .inr (.inr (.inl ⟨BitVec.eq_of_toNat_eq (by simpa using h), rfl⟩))
  · exact .inr (.inr (.inr (.inl ⟨BitVec.eq_of_toNat_eq (by simpa using h), rfl⟩)))
  · exact .inr (.inr (.inr (.inr (.inl ⟨BitVec.eq_of_toNat_eq (by simpa using h), rfl⟩))))
  · exact .inr (.inr (.inr (.inr (.inr ⟨by omega, rfl⟩))))

theorem decodeFilter_error {v : Byte} (h : 4 < v.toNat) : decodeFilter v = .error (.unknownFilterType v) := by
  rcases decodeFilter_cases v with ⟨rfl, -⟩ | ⟨rfl, -⟩ | ⟨rfl, -⟩ | ⟨rfl, -⟩ | ⟨rfl, -⟩ | ⟨-, h'⟩ <;> first | exact h' | simp at h

/-- The bits of the masks and of IRQ_EN in its place, one by one. -/
theorem startIgnoredMask_getLsbD (j : Nat) : startIgnoredMask.getLsbD j = decide (j < 32 ∧ j ≠ 0 ∧ j ≠ 2) := by
  by_cases h : j < 32
  · interval_cases j <;> rfl
  · simp [h, BitVec.getLsbD_of_ge _ j (by omega : 32 ≤ j)]

theorem clearIgnoredMask_getLsbD (j : Nat) : clearIgnoredMask.getLsbD j = decide (j < 32 ∧ 3 ≤ j) := by
  by_cases h : j < 32
  · interval_cases j <;> rfl
  · simp [h, BitVec.getLsbD_of_ge _ j (by omega : 32 ≤ j)]

theorem irqEnBit_getLsbD (q : Bool) (j : Nat) : (irqEnBit q).getLsbD j = (q && decide (j = 2)) := by
  by_cases h : j < 32
  · cases q
    · simp [irqEnBit]
    · interval_cases j <;> rfl
  · have hj : ¬ j = 2 := by omega
    simp [hj, BitVec.getLsbD_of_ge _ j (by omega : 32 ≤ j)]

/-- A bit of a word that has no bit outside a mask is clear where the mask's is. -/
theorem getLsbD_of_masked {w m : Word} (h : w &&& ~~~m = 0#32) {j : Nat} (hm : m.getLsbD j = false) : w.getLsbD j = false := by
  by_cases hj : j < 32
  · have hb : (w &&& ~~~m).getLsbD j = false := by rw [h, BitVec.getLsbD_zero]
    rw [BitVec.getLsbD_and, BitVec.getLsbD_not, hm] at hb
    simpa [hj] using hb
  · exact BitVec.getLsbD_of_ge _ j (by omega)

/-- A CTRL word is a START, a CLEAR or no command, by its bits 0 and 1 (R69, R114). -/
theorem decodeCtrl_cases (v : Word) :
    (v.getLsbD 0 = true ∧ decodeCtrl v = .ok (.start (v.getLsbD 2) (v &&& startIgnoredMask))) ∨
      (v.getLsbD 0 = false ∧ v.getLsbD 1 = true ∧ decodeCtrl v = .ok (.clear (v.getLsbD 2) (v &&& clearIgnoredMask))) ∨
      (v.getLsbD 0 = false ∧ v.getLsbD 1 = false ∧ decodeCtrl v = .error (.noCommand v)) := by
  unfold decodeCtrl
  cases h0 : v.getLsbD 0
  · cases h1 : v.getLsbD 1
    · exact .inr (.inr ⟨rfl, rfl, by simp⟩)
    · exact .inr (.inl ⟨rfl, rfl, by simp⟩)
  · exact .inl ⟨rfl, by simp⟩

end Sys2Proof
end

