-- ==== Sys2Proof/Laws/RowBuf.lean ====
section
/-!
SUPPORT. The laws of the row buffers: a read after a write, what a write leaves alone, the canonical form, and what the copy of the
row commit does.
-/

namespace Sys2Proof.Machine

@[simp] theorem cellAt_nil (j : Nat) : cellAt [] j = none := rfl

/-- A read after a write: the written cell holds the value written, every other cell what it held. -/
theorem cellAt_setCell (b : RowBuf) (j : Nat) (v : Byte) (i : Nat) :
    cellAt (setCell b j v) i = if j = i then some v else cellAt b i := by
  induction b with
  | nil => simp [setCell, cellAt]
  | cons cell rest ih =>
    obtain ⟨k, w⟩ := cell
    by_cases h1 : j < k
    · simp [setCell, h1, cellAt]
    · by_cases h2 : j = k
      · subst h2
        by_cases h3 : j = i <;> simp [setCell, cellAt, h3]
      · simp only [setCell, h1, h2, if_false, cellAt, ih]
        by_cases h3 : k = i <;> by_cases h4 : j = i <;> simp_all

theorem cellAt_setCell_self (b : RowBuf) (j : Nat) (v : Byte) : cellAt (setCell b j v) j = some v := by
  simp [cellAt_setCell]

theorem cellAt_setCell_other (b : RowBuf) {j i : Nat} (h : j ≠ i) (v : Byte) : cellAt (setCell b j v) i = cellAt b i := by
  simp [cellAt_setCell, h]

theorem mem_setCell {b : RowBuf} {j : Nat} {v : Byte} {cell : Host.Cell} (h : cell ∈ setCell b j v) :
    cell = (j, v) ∨ cell ∈ b := by
  induction b with
  | nil => simpa [setCell] using h
  | cons c rest ih =>
    obtain ⟨k, w⟩ := c
    simp only [setCell] at h
    split at h
    · simpa using h
    · split at h
      · rcases List.mem_cons.1 h with h | h
        · exact .inl h
        · exact .inr (List.mem_cons_of_mem _ h)
      · rcases List.mem_cons.1 h with h | h
        · exact .inr (h ▸ List.mem_cons_self)
        · exact (ih h).imp id (List.mem_cons_of_mem _)

/-- A write keeps the canonical form. -/
theorem setCell_wf {b : RowBuf} (h : RowBuf.wf b) (j : Nat) (v : Byte) : RowBuf.wf (setCell b j v) := by
  induction b with
  | nil => simp [setCell, RowBuf.wf]
  | cons c rest ih =>
    obtain ⟨k, w⟩ := c
    have hk : ∀ cell ∈ rest, k < cell.1 := by simpa using (List.pairwise_cons.1 h).1
    have hrest : RowBuf.wf rest := (List.pairwise_cons.1 h).2
    by_cases h1 : j < k
    · rw [show setCell ((k, w) :: rest) j v = (j, v) :: (k, w) :: rest by simp [setCell, h1]]
      refine List.pairwise_cons.2 ⟨fun cell hm => ?_, h⟩
      rcases List.mem_cons.1 hm with rfl | hm
      · exact h1
      · exact h1.trans (hk cell hm)
    · by_cases h2 : j = k
      · subst h2
        simpa [setCell, RowBuf.wf] using h
      · rw [show setCell ((k, w) :: rest) j v = (k, w) :: setCell rest j v by simp [setCell, h1, h2]]
        refine List.pairwise_cons.2 ⟨fun cell hm => ?_, ih hrest⟩
        rcases mem_setCell hm with rfl | hm
        · show k < j
          omega
        · exact hk cell hm

theorem nil_wf : RowBuf.wf [] := List.Pairwise.nil

/-- When a read answers, and with what. -/
theorem readCell_ok {cap : Nat} {b : RowBuf} {j : Nat} {v : Byte} :
    readCell cap b j = .ok v ↔ j < cap ∧ cellAt b j = some v := by
  unfold readCell
  by_cases h : j < cap
  · cases hc : cellAt b j <;> simp [h]
  · simp [h]

/-- When a write answers, and with what. -/
theorem writeCell_ok {cap : Nat} {b c : RowBuf} {j : Nat} {v : Byte} :
    writeCell cap b j v = .ok c ↔ j < cap ∧ c = setCell b j v := by
  unfold writeCell
  by_cases h : j < cap <;> simp [h, eq_comm]

/-- One more cell of the copy. -/
theorem copyCells_succ {cap n : Nat} {cur prev p : RowBuf} :
    copyCells cap cur (n + 1) prev = .ok p ↔
      ∃ q v, copyCells cap cur n prev = .ok q ∧ n < cap ∧ cellAt cur n = some v ∧ p = setCell q n v := by
  constructor
  · intro h
    rw [copyCells] at h
    cases hq : copyCells cap cur n prev with
    | error f => simp [hq] at h
    | ok q =>
      cases hv : readCell cap cur n with
      | error f => simp [hq, hv] at h
      | ok v =>
        simp only [hq, hv] at h
        obtain ⟨hn, rfl⟩ := writeCell_ok.1 h
        exact ⟨q, v, rfl, hn, (readCell_ok.1 hv).2, rfl⟩
  · rintro ⟨q, v, hq, hn, hv, rfl⟩
    have hr : readCell cap cur n = .ok v := readCell_ok.2 ⟨hn, hv⟩
    have hw : writeCell cap q n v = .ok (setCell q n v) := writeCell_ok.2 ⟨hn, rfl⟩
    simp [copyCells, hq, hr, hw]

/-- Everything a copy that answers has done: cells below `n` hold what CUR held, which was a value, and the others are as before. -/
theorem copyCells_ok {cap : Nat} {cur prev : RowBuf} {n : Nat} {p : RowBuf} (h : copyCells cap cur n prev = .ok p) :
    (∀ j, j < n → (cellAt cur j).isSome = true ∧ j < cap) ∧
      ∀ j, cellAt p j = if j < n then cellAt cur j else cellAt prev j := by
  induction n generalizing p with
  | zero =>
    obtain rfl : prev = p := by simpa [copyCells] using h
    simp
  | succ n ih =>
    obtain ⟨q, v, hq, hn, hv, rfl⟩ := copyCells_succ.1 h
    obtain ⟨h1, h2⟩ := ih hq
    refine ⟨fun j hj => ?_, fun j => ?_⟩
    · rcases Nat.lt_succ_iff_lt_or_eq.1 hj with hj | rfl
      · exact h1 j hj
      · exact ⟨by simp [hv], hn⟩
    · rw [cellAt_setCell, h2]
      by_cases hj : n = j
      · subst hj; simp [hv]
      · by_cases hlt : j < n
        · simp [hj, hlt, Nat.lt_succ_of_lt hlt]
        · have : ¬ j < n + 1 := by omega
          simp [hj, hlt, this]

/-- A copy answers when the cells hold values and lie inside the buffer. -/
theorem copyCells_total {cap : Nat} {cur : RowBuf} (prev : RowBuf) {n : Nat} (hcap : n ≤ cap)
    (h : ∀ j, j < n → (cellAt cur j).isSome = true) : ∃ p, copyCells cap cur n prev = .ok p := by
  induction n with
  | zero => exact ⟨prev, rfl⟩
  | succ n ih =>
    obtain ⟨q, hq⟩ := ih (by omega) (fun j hj => h j (by omega))
    obtain ⟨v, hv⟩ := Option.isSome_iff_exists.1 (h n (by omega))
    exact ⟨setCell q n v, copyCells_succ.2 ⟨q, v, hq, by omega, hv, rfl⟩⟩

/-- A copy keeps the canonical form. -/
theorem copyCells_wf {cap : Nat} {cur prev : RowBuf} {n : Nat} {p : RowBuf} (hp : RowBuf.wf prev)
    (h : copyCells cap cur n prev = .ok p) : RowBuf.wf p := by
  induction n generalizing p with
  | zero =>
    obtain rfl : prev = p := by simpa [copyCells] using h
    exact hp
  | succ n ih =>
    obtain ⟨q, v, hq, -, -, rfl⟩ := copyCells_succ.1 h
    exact setCell_wf (ih hq) n v

/-- A copy writes only cells inside the buffer. -/
theorem copyCells_inside {cap : Nat} {cur prev : RowBuf} {n : Nat} {p : RowBuf} (hp : ∀ cell ∈ prev, cell.1 < cap)
    (h : copyCells cap cur n prev = .ok p) : ∀ cell ∈ p, cell.1 < cap := by
  induction n generalizing p with
  | zero =>
    obtain rfl : prev = p := by simpa [copyCells] using h
    exact hp
  | succ n ih =>
    obtain ⟨q, v, hq, hn, -, rfl⟩ := copyCells_succ.1 h
    intro cell hm
    rcases mem_setCell hm with rfl | hm
    · exact hn
    · exact ih hq cell hm

end Sys2Proof.Machine
end

