-- ==== Sys2Proof/Laws/Operands.lean ====
section
/-!
SUPPORT. What the boundary-case mux answers (40_operands R78), when it answers, and what it depends on.
-/

namespace Sys2Proof.Machine

theorem leftEdge_iff (k : Block) : k.leftEdge = true ↔ k.posByte.toNat < k.bpp.toNat := by
  simp [Block.leftEdge]

theorem firstRow_iff (k : Block) : k.firstRow = true ↔ k.posRow = 0#32 := by
  simp [Block.firstRow]

theorem operandA_ok {cap : Nat} {k : Block} {a : Byte} (h : operandA cap k = .ok a) :
    if k.posByte.toNat < k.bpp.toNat then a = 0#8 else cellAt k.cur (k.posByte.toNat - k.bpp.toNat) = some a := by
  unfold operandA at h
  by_cases hl : k.posByte.toNat < k.bpp.toNat
  · have : k.leftEdge = true := (leftEdge_iff k).2 hl
    simp only [this, if_true, Except.ok.injEq] at h
    simp [hl, h]
  · have : ¬ k.leftEdge = true := fun hc => hl ((leftEdge_iff k).1 hc)
    simp only [this] at h
    simpa [hl, Block.leftIndex] using (readCell_ok.1 h).2

theorem operandB_ok {cap : Nat} {k : Block} {b : Byte} (h : operandB cap k = .ok b) :
    if k.posRow = 0#32 then b = 0#8 else cellAt k.prev k.posByte.toNat = some b := by
  unfold operandB at h
  by_cases hl : k.posRow = 0#32
  · have : k.firstRow = true := (firstRow_iff k).2 hl
    simp only [this, if_true, Except.ok.injEq] at h
    simp [hl, h]
  · have : ¬ k.firstRow = true := fun hc => hl ((firstRow_iff k).1 hc)
    simp only [this] at h
    simpa [hl] using (readCell_ok.1 h).2

theorem operandC_ok {cap : Nat} {k : Block} {c : Byte} (h : operandC cap k = .ok c) :
    if k.posByte.toNat < k.bpp.toNat ∨ k.posRow = 0#32 then c = 0#8
    else cellAt k.prev (k.posByte.toNat - k.bpp.toNat) = some c := by
  unfold operandC at h
  by_cases hl : k.posByte.toNat < k.bpp.toNat ∨ k.posRow = 0#32
  · have : (k.leftEdge || k.firstRow) = true := by
      rw [Bool.or_eq_true, leftEdge_iff, firstRow_iff]; exact hl
    simp only [this, if_true, Except.ok.injEq] at h
    simp [hl, h]
  · have : ¬ (k.leftEdge || k.firstRow) = true := by
      rw [Bool.or_eq_true, leftEdge_iff, firstRow_iff]; exact hl
    simp only [this] at h
    simpa [hl, Block.leftIndex] using (readCell_ok.1 h).2

/-- The mux answers the values of R78. -/
theorem neighbours_ok {cap : Nat} {k : Block} {n : Neighbours} (h : neighbours cap k = .ok n) : k.MuxGives n.a n.b n.c := by
  unfold neighbours at h
  cases ha : operandA cap k with
  | error f => simp [ha] at h
  | ok a =>
    cases hb : operandB cap k with
    | error f => simp [ha, hb] at h
    | ok b =>
      cases hc : operandC cap k with
      | error f => simp [ha, hb, hc] at h
      | ok c =>
        simp only [ha, hb, hc, Except.ok.injEq] at h
        subst h
        exact ⟨operandA_ok ha, operandB_ok hb, operandC_ok hc⟩

/-- The values of R78 are unique. -/
theorem muxGives_unique {k : Block} {a b c a' b' c' : Byte} (h : k.MuxGives a b c) (h' : k.MuxGives a' b' c') :
    a = a' ∧ b = b' ∧ c = c' := by
  obtain ⟨h1, h2, h3⟩ := h
  obtain ⟨g1, g2, g3⟩ := h'
  refine ⟨?_, ?_, ?_⟩
  · split at h1 <;> simp_all
  · split at h2 <;> simp_all
  · split at h3 <;> simp_all

/-- The mux answers where R78's values exist and the position is inside the buffer. -/
theorem neighbours_of_muxGives {cap : Nat} {k : Block} {a b c : Byte} (hi : k.posByte.toNat < cap) (h : k.MuxGives a b c) :
    neighbours cap k = .ok ⟨a, b, c⟩ := by
  obtain ⟨h1, h2, h3⟩ := h
  have hleft : k.posByte.toNat - k.bpp.toNat < cap := by omega
  have ha : operandA cap k = .ok a := by
    unfold operandA
    by_cases hl : k.posByte.toNat < k.bpp.toNat
    · rw [if_pos hl] at h1
      rw [if_pos ((leftEdge_iff k).2 hl), h1]
    · rw [if_neg hl] at h1
      rw [if_neg (fun hc => hl ((leftEdge_iff k).1 hc))]
      exact readCell_ok.2 ⟨hleft, h1⟩
  have hb : operandB cap k = .ok b := by
    unfold operandB
    by_cases hl : k.posRow = 0#32
    · rw [if_pos hl] at h2
      rw [if_pos ((firstRow_iff k).2 hl), h2]
    · rw [if_neg hl] at h2
      rw [if_neg (fun hc => hl ((firstRow_iff k).1 hc))]
      exact readCell_ok.2 ⟨hi, h2⟩
  have hc : operandC cap k = .ok c := by
    unfold operandC
    have hiff : (k.leftEdge || k.firstRow) = true ↔ (k.posByte.toNat < k.bpp.toNat ∨ k.posRow = 0#32) := by
      rw [Bool.or_eq_true, leftEdge_iff, firstRow_iff]
    by_cases hl : k.posByte.toNat < k.bpp.toNat ∨ k.posRow = 0#32
    · rw [if_pos hl] at h3
      rw [if_pos (hiff.2 hl), h3]
    · rw [if_neg hl] at h3
      rw [if_neg (fun hc => hl (hiff.1 hc))]
      exact readCell_ok.2 ⟨hleft, h3⟩
  simp [neighbours, ha, hb, hc]

end Sys2Proof.Machine
end

