-- ==== Sys2Proof/Laws/PerInstr.lean ====
section
/-!
SUPPORT. Statements made once for each instruction. `MatchesTable`: the encoder and the rows of spec/opcode_table.json agree, so that
the table's match and mask select exactly the words the encoder writes for the row's instruction (30_encoding R73).
-/

namespace Sys2Proof.Laws.MatchesTable

/-- The encoding of a well-formed instruction has its row's width, and under the row's mask it is the row's match. -/
def Statement (i : Instr) : Prop :=
  i.wf = true → (encode i).bits.1 = (tableRow i).nbits ∧ (encode i).bits.2 &&& (tableRow i).mask = (tableRow i).pattern

theorem filterNone : Statement .filterNone := fun _ => ⟨rfl, rfl⟩

theorem filterSub : Statement .filterSub := fun _ => ⟨rfl, rfl⟩

theorem filterUp : Statement .filterUp := fun _ => ⟨rfl, rfl⟩

theorem filterAverage : Statement .filterAverage := fun _ => ⟨rfl, rfl⟩

theorem filterPaeth : Statement .filterPaeth := fun _ => ⟨rfl, rfl⟩

/-- The low bit and the two low bits of a word, as the masks of the commands' rows pick them. -/
theorem and_one_of_getLsbD {w : Word} (h0 : w.getLsbD 0 = true) : w.toNat &&& 1 = 1 := by
  rw [Nat.and_one_is_mod]
  simpa [BitVec.getLsbD, Nat.testBit_zero] using h0

theorem and_three_of_getLsbD {w : Word} (h0 : w.getLsbD 0 = false) (h1 : w.getLsbD 1 = true) : w.toNat &&& 3 = 2 := by
  apply Nat.eq_of_testBit_eq
  intro j
  rcases j with _ | _ | j
  · have h : w.toNat.testBit 0 = false := h0
    rw [Nat.testBit_and, h]
    rfl
  · have h : w.toNat.testBit (0 + 1) = true := h1
    rw [Nat.testBit_and, h]
    rfl
  · have h3 : Nat.testBit 3 (j + 2) = false := Nat.testBit_lt_two_pow (by
      calc 3 < 2 ^ 2 := by decide
        _ ≤ 2 ^ (j + 2) := Nat.pow_le_pow_right (by decide) (by omega))
    have h2 : Nat.testBit 2 (j + 2) = false := Nat.testBit_lt_two_pow (by
      calc 2 < 2 ^ 2 := by decide
        _ ≤ 2 ^ (j + 2) := Nat.pow_le_pow_right (by decide) (by omega))
    rw [Nat.testBit_and, h3, h2, Bool.and_false]

theorem start (irqEn : Bool) (ignored : Word) : Statement (.start irqEn ignored) := fun _ =>
  ⟨rfl, and_one_of_getLsbD (by rw [BitVec.getLsbD_or, BitVec.getLsbD_or]; simp)⟩

theorem clear (irqEn : Bool) (ignored : Word) : Statement (.clear irqEn ignored) := by
  intro h
  have hw : ignored &&& ~~~clearIgnoredMask = 0#32 := by simpa [Instr.wf] using h
  have h0 := getLsbD_of_masked hw (j := 0) (by rw [clearIgnoredMask_getLsbD]; decide)
  have h1 := getLsbD_of_masked hw (j := 1) (by rw [clearIgnoredMask_getLsbD]; decide)
  refine ⟨rfl, and_three_of_getLsbD ?_ ?_⟩
  · rw [BitVec.getLsbD_or, BitVec.getLsbD_or, irqEnBit_getLsbD, h0, Bool.or_false]
    cases irqEn <;> rfl
  · rw [BitVec.getLsbD_or, BitVec.getLsbD_or, irqEnBit_getLsbD, h1, Bool.or_false]
    cases irqEn <;> rfl

end Sys2Proof.Laws.MatchesTable
end

