-- ==== Sys2Proof/Laws/Registers.lean ====
section
/-!
SUPPORT. The register space: which register an aligned offset names, and what a write that is no command can do.
-/

namespace Sys2Proof.Machine

theorem accessRefusal_none {bits off : Nat} : accessRefusal bits off = none ↔ bits = 32 ∧ off % 4 = 0 ∧ off < 0x40 := by
  unfold accessRefusal
  split
  · simp_all
  · split
    · simp_all
    · split
      · simp_all
      · simp_all

/-- A refused access, and why. -/
theorem accessRefusal_some {bits off : Nat} {r : Refusal} (h : accessRefusal bits off = some r) :
    (bits ≠ 32 ∧ r = .accessWidth) ∨ (off % 4 ≠ 0 ∧ r = .accessAlignment) ∨ (0x40 ≤ off ∧ r = .accessOutsideBlock) := by
  unfold accessRefusal at h
  split at h
  · simp_all
  · split at h
    · simp_all
    · split at h <;> simp_all

/-- CTRL is at offset 0 and nowhere else. -/
theorem regAt_ctrl {off : Nat} : regAt off = .ctrl ↔ off = 0 := by
  constructor
  · intro h
    unfold regAt at h
    split at h <;> simp_all
  · rintro rfl
    rfl

/-- The low half of INLEN written (R116): the high half is kept. -/
theorem writeConfig_inlenLo_toNat (k : Block) (v : Word) :
    (k.writeConfig .inlenLo v).inlen.toNat = k.inlen.toNat / 2 ^ 32 * 2 ^ 32 + v.toNat := by
  have h := BitVec.toNat_append (k.inlen.extractLsb' 32 32) v
  rw [← Nat.shiftLeft_add_eq_or_of_lt v.isLt, Nat.shiftLeft_eq] at h
  refine Eq.trans h ?_
  have hlt := k.inlen.isLt
  rw [BitVec.extractLsb'_toNat, Nat.shiftRight_eq_div_pow, Nat.mod_eq_of_lt (by omega)]

/-- The high half of INLEN written (R116): the low half is kept. -/
theorem writeConfig_inlenHi_toNat (k : Block) (v : Word) :
    (k.writeConfig .inlenHi v).inlen.toNat = v.toNat * 2 ^ 32 + k.inlen.toNat % 2 ^ 32 := by
  have h := BitVec.toNat_append v (k.inlen.extractLsb' 0 32)
  rw [← Nat.shiftLeft_add_eq_or_of_lt (k.inlen.extractLsb' 0 32).isLt, Nat.shiftLeft_eq] at h
  refine Eq.trans h ?_
  rw [BitVec.extractLsb'_toNat, Nat.shiftRight_eq_div_pow, Nat.pow_zero, Nat.div_one]

/-- Everything a configuration write can do: one field of the configuration changes, or nothing. -/
theorem writeConfig_cases (k : Block) (r : Reg) (v : Word) :
    ∃ w h p n, k.writeConfig r v = { k with width := w, height := h, bpp := p, inlen := n } := by
  cases r
  case width => exact ⟨v, k.height, k.bpp, k.inlen, rfl⟩
  case height => exact ⟨k.width, v, k.bpp, k.inlen, rfl⟩
  case bpp => exact ⟨k.width, k.height, v.extractLsb' 0 3, k.inlen, rfl⟩
  case inlenLo => exact ⟨k.width, k.height, k.bpp, k.inlen.extractLsb' 32 32 ++ v, rfl⟩
  case inlenHi => exact ⟨k.width, k.height, k.bpp, v ++ k.inlen.extractLsb' 0 32, rfl⟩
  all_goals exact ⟨k.width, k.height, k.bpp, k.inlen, rfl⟩

/-- Everything a register write that is no command can do: IRQ_EN set, nothing while BUSY, or a configuration write. -/
theorem writeReg_cases (k : Block) (r : Reg) (v : Word) :
    (r = .ctrl ∧ k.writeReg r v = k.setIrqEn (v.getLsbD 2)) ∨
      (r ≠ .ctrl ∧ k.busy = true ∧ k.writeReg r v = k) ∨
      (r ≠ .ctrl ∧ k.busy = false ∧ k.writeReg r v = k.writeConfig r v) := by
  cases hb : k.busy <;> cases r <;> simp [Block.writeReg, hb]

end Sys2Proof.Machine
end

