-- ==== Sys2Proof/Laws/Sequencer.lean ====
section
/-!
SUPPORT. Everything a data step can do (42_sequencer R96, R97), said once, and when it answers.
-/

namespace Sys2Proof.Machine

theorem inReady_iff (s : State) : s.inReady = true ↔ s.host.offering = true ∧ s.host.input ≠ [] := by
  cases h : s.host.input <;> simp [State.inReady, h]

theorem dataReady_iff (s : State) :
    s.dataReady = true ↔ s.host.offering = true ∧ s.host.accepting = true ∧ s.host.input ≠ [] := by
  cases h : s.host.input <;> simp [State.dataReady, State.inReady, h]

/-- Everything the advance after a byte can do: the next byte of the row, or the row commit. -/
theorem advance_ok {cap : Nat} {k l : Block} :
    k.advance cap = .ok l ↔
      (k.posByte.toNat + 1 < k.rowBytes ∧ l = k.nextByte) ∨
        (k.rowBytes ≤ k.posByte.toNat + 1 ∧ ∃ p, copyCells cap k.cur k.rowBytes k.prev = .ok p ∧ l = k.nextRow p) := by
  unfold Block.advance
  by_cases h : k.posByte.toNat + 1 < k.rowBytes
  · have h' : ¬ k.rowBytes ≤ k.posByte.toNat + 1 := by omega
    simp [h, eq_comm]
  · have h' : k.rowBytes ≤ k.posByte.toNat + 1 := by omega
    simp only [h, if_false, false_and, false_or, h', true_and]
    unfold Block.commitRow
    cases hc : copyCells cap k.cur k.rowBytes k.prev <;> simp [eq_comm]

/-- Everything a data step of the block can do when it answers. -/
theorem blockDataStep_ok {cap : Nat} {pred : Neighbours → Byte} {k l : Block} {x y : Byte} :
    k.dataStep cap pred x = .ok (l, y) ↔
      ∃ n, neighbours cap k = .ok n ∧ y = recon pred x n ∧ k.posByte.toNat < cap ∧
        (k.setCur (setCell k.cur k.posByte.toNat y)).countOutput.advance cap = .ok l := by
  unfold Block.dataStep
  cases hn : neighbours cap k with
  | error f => simp
  | ok n =>
    cases hw : writeCell cap k.cur k.posByte.toNat (recon pred x n) with
    | error f =>
      have hcap : ¬ k.posByte.toNat < cap := by
        intro hc
        simp [writeCell, hc] at hw
      simp [hw, hcap]
    | ok c =>
      obtain ⟨hc, rfl⟩ := writeCell_ok.1 hw
      simp only [hw]
      cases ha : (k.setCur (setCell k.cur k.posByte.toNat (recon pred x n))).countOutput.advance cap with
      | error f =>
        constructor
        · intro h; simp at h
        · rintro ⟨m, hm, rfl, -, h⟩
          cases hm
          simp [ha] at h
      | ok l' =>
        constructor
        · intro h
          simp only [Except.ok.injEq, Prod.mk.injEq] at h
          obtain ⟨rfl, rfl⟩ := h
          exact ⟨n, rfl, rfl, hc, ha⟩
        · rintro ⟨m, hm, rfl, -, h⟩
          cases hm
          rw [ha] at h
          cases h
          rfl

/-- The data step of the block within a row. -/
theorem blockDataStep_within {cap : Nat} {pred : Neighbours → Byte} {k : Block} {n : Neighbours} (x : Byte)
    (hn : neighbours cap k = .ok n) (hcap : k.posByte.toNat < cap) (hi : k.posByte.toNat + 1 < k.rowBytes) :
    k.dataStep cap pred x =
      .ok ((k.setCur (setCell k.cur k.posByte.toNat (recon pred x n))).countOutput.nextByte, recon pred x n) :=
  blockDataStep_ok.2 ⟨n, hn, rfl, hcap, advance_ok.2 (.inl ⟨by simpa using hi, rfl⟩)⟩

/-- The data step of the block at the end of a row whose earlier cells hold values. -/
theorem blockDataStep_last {cap : Nat} {pred : Neighbours → Byte} {k : Block} {n : Neighbours} (x : Byte)
    (hn : neighbours cap k = .ok n) (hi : k.posByte.toNat + 1 = k.rowBytes) (hrow : k.rowBytes ≤ cap)
    (hcur : ∀ j, j < k.posByte.toNat → (cellAt k.cur j).isSome = true) :
    ∃ p, copyCells cap (setCell k.cur k.posByte.toNat (recon pred x n)) k.rowBytes k.prev = .ok p ∧
      k.dataStep cap pred x =
        .ok (((k.setCur (setCell k.cur k.posByte.toNat (recon pred x n))).countOutput).nextRow p, recon pred x n) := by
  have hfill : ∀ j, j < k.rowBytes → (cellAt (setCell k.cur k.posByte.toNat (recon pred x n)) j).isSome = true := by
    intro j hj
    rw [cellAt_setCell]
    by_cases h : k.posByte.toNat = j
    · simp [h]
    · simpa [h] using hcur j (by omega)
  obtain ⟨p, hp⟩ := copyCells_total (prev := k.prev) hrow hfill
  exact ⟨p, hp, blockDataStep_ok.2 ⟨n, hn, rfl, by omega, advance_ok.2 (.inr ⟨by simp; omega, p, by simpa using hp, rfl⟩)⟩⟩

/-- Everything a data step at the ports can do when it answers: a hold, or one byte consumed and one delivered. -/
theorem dataStep_next {pred : Neighbours → Byte} {s t : State} :
    dataStep pred s = .next t ↔
      (s.dataReady = false ∧ t = s) ∨
        (s.dataReady = true ∧ ∃ x rest k y, s.host.input = x :: rest ∧
          s.blk.dataStep s.maxRowBytes pred x = .ok (k, y) ∧ t = ((s.setBlk k).setInput rest).outWrite y) := by
  unfold dataStep
  cases hr : s.dataReady with
  | false => simp [eq_comm]
  | true =>
    have hne := ((dataReady_iff s).1 hr).2.2
    cases hi : s.host.input with
    | nil => exact absurd hi hne
    | cons x rest =>
      cases hd : s.blk.dataStep s.maxRowBytes pred x with
      | error f => simp [hd]
      | ok q =>
        obtain ⟨k, y⟩ := q
        constructor
        · intro h
          simp only [if_true, hd, Host.Outcome.next.injEq] at h
          exact .inr ⟨rfl, x, rest, k, y, rfl, hd, h.symm⟩
        · rintro (⟨h, -⟩ | ⟨-, x', rest', k', y', hx, hk, rfl⟩)
          · exact absurd h (by simp)
          · cases hx
            rw [hd] at hk
            cases hk
            simp [hd]

/-- A data step at the ports faults only as the block's data step does; it never refuses. -/
theorem dataStep_fault {pred : Neighbours → Byte} {s : State} {f : Fault} (h : dataStep pred s = .fault f) :
    ∃ x rest, s.host.input = x :: rest ∧ s.blk.dataStep s.maxRowBytes pred x = .error f := by
  unfold dataStep at h
  split at h
  · split at h
    · simp at h
    · rename_i x rest hi
      split at h
      · rename_i g hd
        simp only [Host.Outcome.fault.injEq] at h
        exact ⟨x, rest, hi, h ▸ hd⟩
      · simp at h
  · simp at h

end Sys2Proof.Machine
end

