-- ==== Sys2Proof/Laws/Step.lean ====
section
/-!
SUPPORT. Everything one step can do, said once: `step_moves` turns a step that answers a next state into one of the moves of
`Moves`, and each invariant is a case split over it.
-/

namespace Sys2Proof.Machine

/-- `e` is what happens next in `s`, and `u` is `s` with that action taken from the host's schedule. -/
def Takes (s : State) (e : HostEvent) (u : State) : Prop :=
  (s.host.sched = [] ∧ e = .run ∧ u = s) ∨ ∃ es, s.host.sched = e :: es ∧ u = s.setSched es

/-- The moves of the machine: from `s`, on the host's action `e`, to the next state. -/
inductive Moves (s : State) : HostEvent → State → Prop
  /-- No stream step is enabled (R100). -/
  | hold (hf : s.blk.state = .filter → s.inReady = false) (hd : s.blk.state = .data → s.dataReady = false) : Moves s .run s
  /-- The filter step with a legal code (R94). -/
  | latch (v : Byte) (rest : List Byte) (hs : s.blk.state = .filter) (ho : s.host.offering = true)
      (hi : s.host.input = v :: rest) (hv : v.toNat ≤ 4) :
      Moves s .run ((s.setInput rest).setBlk (s.blk.latchFilter (v.extractLsb' 0 3)))
  /-- The filter step with an illegal code (R95). -/
  | reject (v : Byte) (rest : List Byte) (hs : s.blk.state = .filter) (ho : s.host.offering = true)
      (hi : s.host.input = v :: rest) (hv : 4 < v.toNat) :
      Moves s .run ((s.setInput rest).setBlk (s.blk.rejectFilter v))
  /-- The data step (R96). -/
  | data (x : Byte) (rest : List Byte) (k : Block) (y : Byte) (hs : s.blk.state = .data) (hr : s.dataReady = true)
      (hi : s.host.input = x :: rest) (hf : s.blk.ftCur.toNat ≤ 4)
      (hk : s.blk.dataStep s.maxRowBytes (predictorOf (s.blk.ftCur.zeroExtend 8)) x = .ok (k, y)) :
      Moves s .run (((s.setBlk k).setInput rest).outWrite y)
  /-- The host changes its lines. -/
  | lines (o a : Bool) : Moves s (.lines o a) (s.setLines o a)
  /-- A register read (R105). -/
  | read (off : Nat) (h4 : off % 4 = 0) (hlt : off < 0x40) :
      Moves s (.read 32 off) (s.giveRead (s.blk.readReg (regAt off)))
  /-- A register write that is no command (R106, R107, R116). -/
  | write (off : Nat) (v : Word) (h4 : off % 4 = 0) (hlt : off < 0x40)
      (hc : regAt off = .ctrl → v.getLsbD 0 = false ∧ v.getLsbD 1 = false) :
      Moves s (.write 32 off v) (s.setBlk (s.blk.writeReg (regAt off) v))
  /-- A START or a CLEAR while BUSY (R111, R113). -/
  | ignored (v : Word) (hb : s.blk.busy = true) (hc : v.getLsbD 0 = true ∨ v.getLsbD 1 = true) :
      Moves s (.write 32 0 v) (s.setBlk (s.blk.setIrqEn (v.getLsbD 2)))
  /-- An accepted START (R109). -/
  | start (v : Word) (hb : s.blk.busy = false) (h0 : v.getLsbD 0 = true) :
      Moves s (.write 32 0 v) (s.setBlk ((s.blk.setIrqEn (v.getLsbD 2)).start s.maxRowBytes))
  /-- An accepted CLEAR (R112). -/
  | clear (v : Word) (hb : s.blk.busy = false) (h0 : v.getLsbD 0 = false) (h1 : v.getLsbD 1 = true) :
      Moves s (.write 32 0 v) (s.setBlk (s.blk.setIrqEn (v.getLsbD 2)).clear)
  /-- Reset (R137). -/
  | reset : Moves s .reset (s.setBlk Block.reset)

/-- What a fetched thing leads to. -/
def Fetched.outcome : Fetched → Host.Outcome State Fault Refusal
  | .run i t => exec i t
  | .settled o => o

theorem step_eq (s : State) : step s = (fetch s).outcome := by
  unfold step
  cases fetch s <;> rfl

/-- The latched code of a row, as the five cases a data step meets. -/
theorem fetchData_outcome {s t : State} (hs : s.blk.state = .data) (h : (fetchData s).outcome = .next t) : Moves s .run t := by
  unfold fetchData at h
  cases hr : s.dataReady with
  | false =>
    simp only [hr] at h
    cases h
    exact .hold (by simp [hs]) (fun _ => hr)
  | true =>
    simp only [hr, if_true] at h
    have key : ∀ pred, predictorOf (s.blk.ftCur.zeroExtend 8) = pred → s.blk.ftCur.toNat ≤ 4 → dataStep pred s = .next t →
        Moves s .run t := by
      intro pred hp hle hd
      rcases dataStep_next.1 hd with ⟨hno, -⟩ | ⟨-, x, rest, k, y, hi, hk, rfl⟩
      · rw [hr] at hno; cases hno
      · exact .data x rest k y hs hr hi hle (by rw [hp]; exact hk)
    have hle : ∀ n, n ≤ 4 → s.blk.ftCur.zeroExtend 8 = BitVec.ofNat 8 n → s.blk.ftCur.toNat ≤ 4 := by
      intro n hn he
      have := congrArg BitVec.toNat he
      simp [BitVec.toNat_setWidth] at this
      omega
    rcases decodeFilter_cases (s.blk.ftCur.zeroExtend 8) with ⟨hv, hd⟩ | ⟨hv, hd⟩ | ⟨hv, hd⟩ | ⟨hv, hd⟩ | ⟨hv, hd⟩ | ⟨hv, hd⟩
    all_goals simp only [hd, Fetched.outcome] at h
    · exact key predNone (by rw [hv]; rfl) (hle 0 (by omega) hv) (by simpa [exec, execNone, streamStep, hs] using h)
    · exact key predSub (by rw [hv]; rfl) (hle 1 (by omega) hv) (by simpa [exec, execSub, streamStep, hs] using h)
    · exact key predUp (by rw [hv]; rfl) (hle 2 (by omega) hv) (by simpa [exec, execUp, streamStep, hs] using h)
    · exact key predAverage (by rw [hv]; rfl) (hle 3 (by omega) hv) (by simpa [exec, execAverage, streamStep, hs] using h)
    · exact key predPaeth (by rw [hv]; rfl) (hle 4 (by omega) hv) (by simpa [exec, execPaeth, streamStep, hs] using h)
    · cases h

/-- A filter step latches a legal code or rejects an illegal one. -/
theorem fetchFilter_outcome {s t : State} (hs : s.blk.state = .filter) (h : (fetchFilter s).outcome = .next t) :
    Moves s .run t := by
  unfold fetchFilter at h
  cases ho : s.host.offering with
  | false =>
    simp only [ho] at h
    cases h
    exact .hold (fun _ => by simp [State.inReady, ho]) (by simp [hs])
  | true =>
    cases hi : s.host.input with
    | nil =>
      simp only [ho, if_true, hi] at h
      cases h
      exact .hold (fun _ => by simp [State.inReady, hi]) (by simp [hs])
    | cons v rest =>
      simp only [ho, if_true, hi] at h
      have hs' : (s.setInput rest).blk.state = .filter := hs
      rcases decodeFilter_cases v with ⟨hv, hd⟩ | ⟨hv, hd⟩ | ⟨hv, hd⟩ | ⟨hv, hd⟩ | ⟨hv, hd⟩ | ⟨hv, hd⟩
      all_goals simp only [hd, Fetched.outcome, exec, execNone, execSub, execUp, execAverage, execPaeth, streamStep, hs'] at h
      all_goals cases h
      · subst hv; exact Moves.latch _ rest hs ho hi (by decide)
      · subst hv; exact Moves.latch _ rest hs ho hi (by decide)
      · subst hv; exact Moves.latch _ rest hs ho hi (by decide)
      · subst hv; exact Moves.latch _ rest hs ho hi (by decide)
      · subst hv; exact Moves.latch _ rest hs ho hi (by decide)
      · exact .reject v rest hs ho hi hv

theorem fetchStream_outcome {s t : State} (h : (fetchStream s).outcome = .next t) : Moves s .run t := by
  unfold fetchStream at h
  cases hs : s.blk.state <;> simp only [hs] at h
  case filter => exact fetchFilter_outcome hs h
  case data => exact fetchData_outcome hs h
  all_goals
    cases h
    exact .hold (by simp [hs]) (by simp [hs])

theorem hostRead_outcome {s t : State} {bits off : Nat} (h : (hostRead bits off s).outcome = .next t) :
    Moves s (.read bits off) t := by
  unfold hostRead at h
  cases hr : accessRefusal bits off with
  | some r => simp [hr, Fetched.outcome] at h
  | none =>
    obtain ⟨rfl, h4, hlt⟩ := accessRefusal_none.1 hr
    simp only [hr, Fetched.outcome, Host.Outcome.next.injEq] at h
    subst h
    exact .read off h4 hlt

theorem hostWrite_outcome {s t : State} {bits off : Nat} {v : Word} (h : (hostWrite bits off v s).outcome = .next t) :
    Moves s (.write bits off v) t := by
  unfold hostWrite at h
  cases hr : accessRefusal bits off with
  | some r => simp [hr, Fetched.outcome] at h
  | none =>
    obtain ⟨rfl, h4, hlt⟩ := accessRefusal_none.1 hr
    simp only [hr] at h
    by_cases hreg : regAt off = .ctrl
    · obtain rfl := regAt_ctrl.1 hreg
      rw [hreg] at h
      rcases decodeCtrl_cases v with ⟨h0, hd⟩ | ⟨h0, h1, hd⟩ | ⟨h0, h1, hd⟩
      · simp only [hd, Fetched.outcome, exec, execStart] at h
        cases hb : s.blk.busy <;> simp only [hb, if_true] at h
        · cases h
          exact .start v hb h0
        · cases h
          exact .ignored v hb (.inl h0)
      · simp only [hd, Fetched.outcome, exec, execClear] at h
        cases hb : s.blk.busy <;> simp only [hb, if_true] at h
        · cases h
          exact .clear v hb h0 h1
        · cases h
          exact .ignored v hb (.inr h1)
      · simp only [hd, Fetched.outcome, Host.Outcome.next.injEq] at h
        subst h
        rw [← hreg]
        exact .write 0 v h4 hlt (fun _ => ⟨h0, h1⟩)
    · have : t = s.setBlk (s.blk.writeReg (regAt off) v) := by
        cases hx : regAt off <;> simp only [hx] at h hreg ⊢
        case ctrl => exact absurd trivial hreg
        all_goals
          simp only [Fetched.outcome, Host.Outcome.next.injEq] at h
          exact h.symm
      subst this
      exact .write off v h4 hlt (fun hc => absurd hc hreg)

theorem hostEvent_outcome {s t : State} {e : HostEvent} (h : (hostEvent e s).outcome = .next t) : Moves s e t := by
  cases e with
  | run => exact fetchStream_outcome h
  | lines o a => cases h; exact .lines o a
  | read bits off => exact hostRead_outcome h
  | write bits off v => exact hostWrite_outcome h
  | reset => cases h; exact .reset

/-- Everything a step can do when it answers a next state. -/
theorem step_moves {s t : State} (h : step s = .next t) : ∃ e u, Takes s e u ∧ Moves u e t := by
  rw [step_eq] at h
  unfold fetch at h
  cases hs : s.host.sched with
  | nil =>
    simp only [hs] at h
    exact ⟨.run, s, .inl ⟨hs, rfl, rfl⟩, fetchStream_outcome h⟩
  | cons e es =>
    simp only [hs] at h
    exact ⟨e, s.setSched es, .inr ⟨es, hs, rfl⟩, hostEvent_outcome h⟩

/-- The converse of `hostEvent_outcome`: every move is what its action leads to. -/
theorem hostEvent_of_moves {s t : State} {e : HostEvent} (h : Moves s e t) : (hostEvent e s).outcome = .next t := by
  cases h with
  | hold hf hd =>
    cases hs : s.blk.state with
    | filter =>
      have hr := hf hs
      cases ho : s.host.offering with
      | false => simp [hostEvent, fetchStream, fetchFilter, hs, ho, Fetched.outcome]
      | true =>
        cases hi : s.host.input with
        | nil => simp [hostEvent, fetchStream, fetchFilter, hs, ho, hi, Fetched.outcome]
        | cons v rest => simp [State.inReady, ho, hi] at hr
    | data => simp [hostEvent, fetchStream, fetchData, hs, hd hs, Fetched.outcome]
    | idle => simp [hostEvent, fetchStream, hs, Fetched.outcome]
    | done => simp [hostEvent, fetchStream, hs, Fetched.outcome]
    | error => simp [hostEvent, fetchStream, hs, Fetched.outcome]
  | latch v rest hs ho hi hv =>
    have hs' : (s.setInput rest).blk.state = .filter := hs
    rcases decodeFilter_cases v with ⟨rfl, hd⟩ | ⟨rfl, hd⟩ | ⟨rfl, hd⟩ | ⟨rfl, hd⟩ | ⟨rfl, hd⟩ | ⟨hv', -⟩
    · simp only [hostEvent, fetchStream, hs, fetchFilter, ho, hi, if_true, hd, Fetched.outcome, exec, execNone, streamStep, hs']; rfl
    · simp only [hostEvent, fetchStream, hs, fetchFilter, ho, hi, if_true, hd, Fetched.outcome, exec, execSub, streamStep, hs']; rfl
    · simp only [hostEvent, fetchStream, hs, fetchFilter, ho, hi, if_true, hd, Fetched.outcome, exec, execUp, streamStep, hs']; rfl
    · simp only [hostEvent, fetchStream, hs, fetchFilter, ho, hi, if_true, hd, Fetched.outcome, exec, execAverage, streamStep, hs']; rfl
    · simp only [hostEvent, fetchStream, hs, fetchFilter, ho, hi, if_true, hd, Fetched.outcome, exec, execPaeth, streamStep, hs']; rfl
    · omega
  | reject v rest hs ho hi hv =>
    simp only [hostEvent, fetchStream, hs, fetchFilter, ho, hi, if_true, decodeFilter_error hv, Fetched.outcome]
  | data x rest k y hs hr hi hf hk =>
    have key : ∀ pred, predictorOf (s.blk.ftCur.zeroExtend 8) = pred →
        dataStep pred s = .next (((s.setBlk k).setInput rest).outWrite y) := by
      intro pred hp
      exact dataStep_next.2 (.inr ⟨hr, x, rest, k, y, hi, by rw [← hp]; exact hk, rfl⟩)
    have hle : (s.blk.ftCur.zeroExtend 8).toNat ≤ 4 := by
      simp [BitVec.toNat_setWidth]
      omega
    simp only [hostEvent, fetchStream, hs, fetchData, hr, if_true]
    rcases decodeFilter_cases (s.blk.ftCur.zeroExtend 8) with ⟨hv, hd⟩ | ⟨hv, hd⟩ | ⟨hv, hd⟩ | ⟨hv, hd⟩ | ⟨hv, hd⟩ | ⟨hv, -⟩
    · simp only [hd, Fetched.outcome, exec, execNone, streamStep, hs]; exact key _ (by rw [hv]; rfl)
    · simp only [hd, Fetched.outcome, exec, execSub, streamStep, hs]; exact key _ (by rw [hv]; rfl)
    · simp only [hd, Fetched.outcome, exec, execUp, streamStep, hs]; exact key _ (by rw [hv]; rfl)
    · simp only [hd, Fetched.outcome, exec, execAverage, streamStep, hs]; exact key _ (by rw [hv]; rfl)
    · simp only [hd, Fetched.outcome, exec, execPaeth, streamStep, hs]; exact key _ (by rw [hv]; rfl)
    · omega
  | lines o a => rfl
  | read off h4 hlt => simp [hostEvent, hostRead, accessRefusal_none.2 ⟨rfl, h4, hlt⟩, Fetched.outcome]
  | write off v h4 hlt hc =>
    simp only [hostEvent, hostWrite, accessRefusal_none.2 ⟨rfl, h4, hlt⟩]
    cases hr : regAt off with
    | ctrl =>
      obtain ⟨h0, h1⟩ := hc hr
      rcases decodeCtrl_cases v with ⟨h, -⟩ | ⟨-, h, -⟩ | ⟨-, -, hd⟩
      · rw [h0] at h; cases h
      · rw [h1] at h; cases h
      · simp [hd, Fetched.outcome]
    | _ => simp [Fetched.outcome]
  | ignored v hb hc =>
    simp only [hostEvent, hostWrite, accessRefusal_none.2 ⟨rfl, Nat.zero_mod 4, by omega⟩, regAt]
    rcases decodeCtrl_cases v with ⟨-, hd⟩ | ⟨-, -, hd⟩ | ⟨h0, h1, -⟩
    · simp [hd, Fetched.outcome, exec, execStart, hb]
    · simp [hd, Fetched.outcome, exec, execClear, hb]
    · rw [h0, h1] at hc; simp at hc
  | start v hb h0 =>
    simp only [hostEvent, hostWrite, accessRefusal_none.2 ⟨rfl, Nat.zero_mod 4, by omega⟩, regAt]
    rcases decodeCtrl_cases v with ⟨-, hd⟩ | ⟨h, -⟩ | ⟨h, -⟩
    · simp [hd, Fetched.outcome, exec, execStart, hb]
    · rw [h0] at h; cases h
    · rw [h0] at h; cases h
  | clear v hb h0 h1 =>
    simp only [hostEvent, hostWrite, accessRefusal_none.2 ⟨rfl, Nat.zero_mod 4, by omega⟩, regAt]
    rcases decodeCtrl_cases v with ⟨h, -⟩ | ⟨-, -, hd⟩ | ⟨-, h, -⟩
    · rw [h0] at h; cases h
    · simp [hd, Fetched.outcome, exec, execClear, hb]
    · rw [h1] at h; cases h
  | reset => rfl

/-- The converse of `step_moves`: the step takes every move. -/
theorem step_of_moves {s u t : State} {e : HostEvent} (h : Takes s e u) (hm : Moves u e t) : step s = .next t := by
  rw [step_eq, fetch]
  rcases h with ⟨hs, rfl, rfl⟩ | ⟨es, hs, rfl⟩
  · simp only [hs]; exact hostEvent_of_moves hm
  · simp only [hs]; exact hostEvent_of_moves hm

/-- The turn of the stream step (R100): the step is that of the stream fetch, on a state that differs only in the host's plan. -/
theorem step_streamTurn {s u : State} (h : s.StreamTurn u) :
    step s = (fetchStream u).outcome ∧ u.maxRowBytes = s.maxRowBytes ∧ u.blk = s.blk ∧ u.host.input = s.host.input ∧
      u.host.offering = s.host.offering ∧ u.host.accepting = s.host.accepting ∧ u.host.output = s.host.output ∧
      u.host.readData = s.host.readData := by
  rw [step_eq, fetch]
  rcases h with ⟨h, rfl⟩ | ⟨es, h, rfl⟩
  · simp [h]
  · simp [h, hostEvent, State.setSched]

/-- A run of no step. -/
theorem runSteps_zero (s : State) : runSteps 0 s = .next s := rfl

/-- A run whose first step answers a next state goes on from it. -/
theorem runSteps_succ {s t : State} (h : step s = .next t) (k : Nat) : runSteps (k + 1) s = runSteps k t := by
  simp [runSteps, h]

/-- `runSteps` is the run of Host.Core. -/
theorem runSteps_eq_run (k : Nat) (s : State) : runSteps k s = Sys2Proof.core.run k s := by
  have hr : ∀ (M : Host.Core) (f : Nat → M.State → Host.Outcome M.State M.Fault M.Refusal),
      (∀ a, f 0 a = .next a) → (∀ j a b, M.step a = .next b → f (j + 1) a = f j b) →
      (∀ j a r, M.step a = .fault r → f (j + 1) a = .fault r) →
      (∀ j a r, M.step a = .refused r → f (j + 1) a = .refused r) → ∀ j a, f j a = M.run j a := by
    intro M f h0 hn hf hr j
    induction j with
    | zero => exact h0
    | succ j ih =>
      intro a
      rw [Host.Core.run]
      cases h : M.step a with
      | next b => simp [hn j a b h, ih]
      | fault r => simp [hf j a r h]
      | refused r => simp [hr j a r h]
  have hfault : ∀ (j : Nat) (a : State) (r : Fault), step a = .fault r → runSteps (j + 1) a = .fault r := by
    intro j a r h
    simp [runSteps, h]
  have hrefused : ∀ (j : Nat) (a : State) (r : Refusal), step a = .refused r → runSteps (j + 1) a = .refused r := by
    intro j a r h
    simp [runSteps, h]
  exact hr Sys2Proof.core runSteps (fun _ => rfl) (fun j _ _ h => runSteps_succ h j) hfault hrefused k s

/-- What taking an action from the schedule leaves as it was. -/
theorem takes_same {s u : State} {e : HostEvent} (h : Takes s e u) :
    u.maxRowBytes = s.maxRowBytes ∧ u.blk = s.blk ∧ u.host.input = s.host.input ∧ u.host.offering = s.host.offering ∧
      u.host.accepting = s.host.accepting ∧ u.host.output = s.host.output ∧ u.host.readData = s.host.readData := by
  rcases h with ⟨-, -, rfl⟩ | ⟨es, -, rfl⟩ <;> simp

end Sys2Proof.Machine
end

