-- ==== Sys2Proof/Tests/Slice0.lean ====
section
/-!
SUPPORT. The model's own tests, each a named theorem. Expected results come from spec/: 30_encoding for the words,
95_test_vectors 2.1 to 2.9 for the steps. The theorems named witness_<obligation> show states and operands that meet the hypotheses of
that obligation, a boundary value for each of its clauses.
-/

namespace Sys2Proof.Tests

open Sys2Proof.Machine

/-! ## Well-formedness -/

/-- R69: bit 0 and bit 2 of a START word are not ignored bits, so a term that lists one is no instruction. -/
theorem test_wf_refuses_start :
    (Instr.start false 0x1#32).wf = false ∧ (Instr.start true 0x4#32).wf = false ∧
      (Instr.start true 0xFFFFFFFA#32).wf = true := by decide

/-- R69: nor are bits 2..0 of a CLEAR word. -/
theorem test_wf_refuses_clear :
    (Instr.clear false 0x1#32).wf = false ∧ (Instr.clear false 0x2#32).wf = false ∧ (Instr.clear true 0x4#32).wf = false ∧
      (Instr.clear true 0xFFFFFFF8#32).wf = true := by decide

/-! ## Decoding -/

/-- R64: each FT8 code, written out bit by bit. -/
theorem test_decode_filter_bytes :
    decodeFilter 0b00000000#8 = .ok .filterNone ∧ decodeFilter 0b00000001#8 = .ok .filterSub ∧
      decodeFilter 0b00000010#8 = .ok .filterUp ∧ decodeFilter 0b00000011#8 = .ok .filterAverage ∧
      decodeFilter 0b00000100#8 = .ok .filterPaeth := ⟨rfl, rfl, rfl, rfl, rfl⟩

/-- R64, R65: all 8 bits take part in the match: a code with a high bit set is no legal code. -/
theorem test_decode_high_bits :
    decodeFilter 0b10000001#8 = .error (.unknownFilterType 0x81#8) ∧
      decodeFilter 0b00001000#8 = .error (.unknownFilterType 0x08#8) := ⟨rfl, rfl⟩

/-- R69: the CTRL words of the table. -/
theorem test_decode_ctrl_words :
    decodeCtrl 0b00000000000000000000000000000001#32 = .ok (.start false 0#32) ∧
      decodeCtrl 0b00000000000000000000000000000101#32 = .ok (.start true 0#32) ∧
      decodeCtrl 0b00000000000000000000000000000010#32 = .ok (.clear false 0#32) ∧
      decodeCtrl 0b00000000000000000000000000000110#32 = .ok (.clear true 0#32) ∧
      decodeCtrl 0b00000000000000000000000000000011#32 = .ok (.start false 2#32) := ⟨rfl, rfl, rfl, rfl, rfl⟩

/-- R69: a word whose bits 0 and 1 are clear is no command, whatever its other bits. -/
theorem test_decode_no_command :
    decodeCtrl 0x00000004#32 = .error (.noCommand 0x00000004#32) ∧
      decodeCtrl 0xFFFFFFF8#32 = .error (.noCommand 0xFFFFFFF8#32) := ⟨rfl, rfl⟩

/-- Every row of spec/opcode_table.json, its match given as the bits. -/
theorem test_decode_table_words :
    decodeTableWord 8 0 = some .filterNone ∧ decodeTableWord 8 1 = some .filterSub ∧ decodeTableWord 8 2 = some .filterUp ∧
      decodeTableWord 8 3 = some .filterAverage ∧ decodeTableWord 8 4 = some .filterPaeth ∧
      decodeTableWord 32 1 = some (.start false 0#32) ∧ decodeTableWord 32 2 = some (.clear false 0#32) ∧
      decodeTableWord 8 5 = none := ⟨rfl, rfl, rfl, rfl, rfl, rfl, rfl, rfl⟩

/-- No two rows of the opcode table match one word of one format. -/
theorem test_table_rows_do_not_overlap :
    [Instr.filterNone, .filterSub, .filterUp, .filterAverage, .filterPaeth, .start false 0#32, .clear false 0#32].Pairwise
      (fun i j => (tableRow i).nbits ≠ (tableRow j).nbits ∨
        (tableRow i).mask &&& (tableRow j).mask &&& (tableRow i).pattern ≠
          (tableRow i).mask &&& (tableRow j).mask &&& (tableRow j).pattern) := by decide

/-! ## Small states: an image of two rows of two pixels, BPP 1, INLEN = NEEDED = 6, MAX_ROW_BYTES 2 -/

/-- The block at position (r, i), having delivered `out` bytes. -/
def blk (st : SessionState) (r i out : Nat) (ft : BitVec 3) (prev cur : RowBuf) : Block :=
  { Block.reset with
    width := 2#32, height := 2#32, bpp := 1#3, inlen := 6#64, state := st, posRow := BitVec.ofNat 32 r, posByte := BitVec.ofNat 32 i
    outCount := BitVec.ofNat 64 out, ftCur := ft, prev := prev, cur := cur }

/-- The machine around it: the host's plan and what it offers. -/
def mk (b : Block) (sched : List HostEvent) (input : List Byte) : State :=
  { maxRowBytes := 2, blk := b, host := { HostSide.reset with sched := sched, input := input } }

def idleB : Block := blk .idle 0 0 0 0#3 [] []
def filter0 : Block := blk .filter 0 0 0 0#3 [] []
def filter1 : Block := blk .filter 1 0 2 4#3 [(0, 0x10#8), (1, 0x20#8)] []
def data00 (ft : BitVec 3) : Block := blk .data 0 0 0 ft [] []
def data01 (ft : BitVec 3) (a : Byte) : Block := blk .data 0 1 1 ft [] [(0, a)]
def data10 (ft : BitVec 3) (b : Byte) : Block := blk .data 1 0 2 ft [(0, b), (1, 0x20#8)] []
def data11 (ft : BitVec 3) (a b c : Byte) : Block := blk .data 1 1 3 ft [(0, c), (1, b)] [(0, a)]
def doneB (irqEn : Bool) : Block := { blk .done 2 0 4 4#3 [(0, 0x10#8), (1, 0x20#8)] [] with irqEn := irqEn }
def truncatedB : Block := { blk .error 0 0 0 0#3 [] [] with errCode := .truncatedScanlines }
def unknownB : Block :=
  { blk .error 1 0 2 4#3 [(0, 0x10#8), (1, 0x20#8)] [] with
    errCode := .unknownFilterType, errInfo := 5#32, errRow := 1#32 }
def configB : Block := { blk .error 0 0 0 0#3 [] [] with errCode := .configError, errInfo := 4#32 }

/-- What the host has received after an outcome. -/
def delivered : Host.Outcome State Fault Refusal → Option (List Byte)
  | .next t => some t.host.output
  | .fault _ => none
  | .refused _ => none

/-- A property of the block after an outcome. -/
def blockAfter {α : Type} (f : Block → α) : Host.Outcome State Fault Refusal → Option α
  | .next t => some (f t.blk)
  | .fault _ => none
  | .refused _ => none

/-! ## The five filters (95_test_vectors 2.1 to 2.5) -/

theorem test_none : delivered (exec .filterNone (mk (data11 0#3 0xFF#8 0xFF#8 0xFF#8) [] [0x7F#8])) = some [0x7F#8] := by decide

theorem test_sub_wraps : delivered (exec .filterSub (mk (data11 1#3 0x90#8 0x00#8 0x55#8) [] [0x80#8])) = some [0x10#8] := by decide

theorem test_sub_left_edge : delivered (exec .filterSub (mk (data10 1#3 0xAA#8) [] [0x05#8])) = some [0x05#8] := by decide

theorem test_up_wraps : delivered (exec .filterUp (mk (data11 2#3 0x99#8 0x01#8 0x55#8) [] [0xFF#8])) = some [0x00#8] := by decide

theorem test_up_first_row : delivered (exec .filterUp (mk (data01 2#3 0x99#8) [] [0x22#8])) = some [0x22#8] := by decide

theorem test_average_sum_is_not_reduced :
    delivered (exec .filterAverage (mk (data11 3#3 0xFF#8 0xFF#8 0x00#8) [] [0x05#8])) = some [0x04#8] := by decide

theorem test_average_floor :
    delivered (exec .filterAverage (mk (data11 3#3 0x03#8 0x04#8 0x00#8) [] [0x00#8])) = some [0x03#8] := by decide

/-- The vector with c strictly closest. -/
theorem test_paeth_takes_c :
    delivered (exec .filterPaeth (mk (data11 4#3 0#8 100#8 50#8) [] [0x01#8])) = some [0x33#8] := by decide

/-- The b–c tie, which b wins; and the vectors of 2.10 tell the rejected reading apart in the predictor itself. -/
theorem test_paeth_ties :
    delivered (exec .filterPaeth (mk (data11 4#3 0#8 3#8 1#8) [] [0x00#8])) = some [0x03#8] ∧
      predPaeth ⟨10#8, 10#8, 10#8⟩ = 10#8 ∧ predPaeth ⟨0#8, 3#8, 2#8⟩ = 0#8 ∧ predPaeth ⟨255#8, 255#8, 0#8⟩ = 255#8 ∧
      predPaeth ⟨0#8, 0#8, 255#8⟩ = 0#8 ∧ predPaeth ⟨200#8, 10#8, 100#8⟩ = 100#8 := by decide

/-- 95_test_vectors 2.7: an illegal filter byte in row 1. -/
theorem test_filter_step_illegal :
    blockAfter (fun k => (k.statusWord, k.errInfo, k.errRow, k.ftCur)) (step (mk filter1 [] [0x80#8, 0x01#8])) =
      some (0x00000024#32, 0x80#32, 1#32, 4#3) := by decide

/-! ## START and CLEAR (95_test_vectors 2.8, 2.9) -/

/-- The START of a configuration on an idle block with MAX_ROW_BYTES 65536. -/
def startOf (w h : Word) (p : BitVec 3) (n : BitVec 64) : Option (Word × Word) :=
  blockAfter (fun k => (k.statusWord, k.errInfo))
    (exec (.start false 0#32)
      { State.reset with blk := { Block.reset with width := w, height := h, bpp := p, inlen := n } })

theorem test_start_config_errors :
    startOf 0 2 2 0 = some (0x34#32, 1#32) ∧ startOf 2 0 3 100 = some (0x34#32, 2#32) ∧
      startOf 2 2 2 100 = some (0x34#32, 3#32) ∧ startOf 16385 1 4 1000000 = some (0x34#32, 4#32) := by decide

theorem test_start_length :
    startOf 16384 1 4 65537 = some (0x101#32, 0#32) ∧ startOf 2 2 4 17 = some (0x14#32, 0#32) ∧
      startOf 2 2 4 18 = some (0x101#32, 0#32) := by decide

theorem test_clear_acknowledges :
    blockAfter (fun k => (k.statusWord, k.irq, k.posRow)) (exec (.clear false 0#32) (mk (doneB true) [] [])) =
      some (0#32, false, 2#32) := by decide

theorem test_clear_ignored_while_busy :
    blockAfter (fun k => (k.statusWord, k.irqEn)) (exec (.clear true 0#32) (mk filter1 [] [])) = some (0x101#32, true) := by decide

/-! ## Registers and resetting (95_test_vectors 2.9) -/

theorem test_bpp_write_truncates : blockAfter (fun k => k.readReg .bpp) (step (mk idleB [.write 32 0x10 9#32] [])) = some 1#32 := by decide

theorem test_width_write_locked : blockAfter (fun k => k.readReg .width) (step (mk filter1 [.write 32 0x08 9#32] [])) = some 2#32 := by decide

theorem test_start_in_error_with_clear_bit :
    blockAfter Block.statusWord (step (mk unknownB [.write 32 0x00 3#32] [])) = some 0x101#32 := by decide

theorem test_reset_clears_a_session : blockAfter id (step (mk (data11 4#3 1#8 2#8 3#8) [.reset] [0x01#8])) = some Block.reset := by decide

/-! ## Placing an instruction (log entry 3) -/

theorem test_placed_filter_runs_after_reset :
    blockAfter (fun k => (k.state, k.ftCur)) (step (State.reset.withFetchWord 8 3)) = some (.data, 3#3) := by decide

theorem test_placed_command_runs_after_reset :
    blockAfter (fun k => (k.statusWord, k.errInfo)) (step (State.reset.withFetchWord 32 1)) = some (0x34#32, 1#32) ∧
      blockAfter Block.statusWord (step (State.reset.withFetchWord 32 2)) = some 0#32 := by decide

/-! ## The invariant on the small states -/

/-- `State.Inv` as a test, its parts in the order of the structure; in DONE the registers still hold the session's configuration. -/
def invCheck (s : State) : Bool :=
  decide (1 ≤ s.maxRowBytes ∧ s.maxRowBytes ≤ 2 ^ 32 - 1) &&
  decide (RowBuf.wf s.blk.prev ∧ RowBuf.wf s.blk.cur ∧ (∀ cell ∈ s.blk.prev, cell.1 < s.maxRowBytes) ∧
    ∀ cell ∈ s.blk.cur, cell.1 < s.maxRowBytes) &&
  decide (s.blk.errCode = .noError → s.blk.state ≠ .error ∧ s.blk.errInfo = 0#32 ∧ s.blk.errRow = 0#32) &&
  decide (s.blk.errCode = .truncatedScanlines → s.blk.state = .error ∧ s.blk.errInfo = 0#32 ∧ s.blk.errRow = 0#32) &&
  decide (s.blk.errCode = .unknownFilterType →
    s.blk.state = .error ∧ 5 ≤ s.blk.errInfo.toNat ∧ s.blk.errInfo.toNat ≤ 255 ∧ s.blk.errRow = s.blk.posRow) &&
  decide (s.blk.errCode = .configError →
    s.blk.state = .error ∧ 1 ≤ s.blk.errInfo.toNat ∧ s.blk.errInfo.toNat ≤ 4 ∧ s.blk.errRow = 0#32) &&
  decide (s.blk.state = .filter →
    s.blk.posRow.toNat < s.blk.height.toNat ∧ s.blk.posByte = 0#32 ∧
      s.blk.outCount.toNat = s.blk.posRow.toNat * s.blk.rowBytes) &&
  decide (s.blk.state = .data →
    s.blk.posRow.toNat < s.blk.height.toNat ∧ s.blk.posByte.toNat < s.blk.rowBytes ∧
      s.blk.outCount.toNat = s.blk.posRow.toNat * s.blk.rowBytes + s.blk.posByte.toNat) &&
  decide (s.blk.state = .done →
    s.blk.posRow = s.blk.height ∧ s.blk.posByte = 0#32 ∧ s.blk.outCount.toNat = s.blk.outTotal) &&
  decide (s.blk.busy = true ∨ s.blk.state = .done →
    0 < s.blk.width.toNat ∧ 0 < s.blk.height.toNat ∧ (s.blk.bpp = 1#3 ∨ s.blk.bpp = 3#3 ∨ s.blk.bpp = 4#3) ∧
      s.blk.rowBytes ≤ s.maxRowBytes ∧ s.blk.needed ≤ s.blk.inlen.toNat) &&
  decide (s.blk.ftCur.toNat ≤ 4) &&
  decide (s.blk.state = .data → ∀ j, j < s.blk.posByte.toNat → (cellAt s.blk.cur j).isSome = true) &&
  decide (s.blk.busy = true → s.blk.posRow ≠ 0#32 → ∀ j, j < s.blk.rowBytes → (cellAt s.blk.prev j).isSome = true)

theorem inv_of_checks {s : State} (h : invCheck s = true) : s.Inv := by
  simp only [invCheck, Bool.and_eq_true, decide_eq_true_eq] at h
  obtain ⟨⟨⟨⟨⟨⟨⟨⟨⟨⟨⟨⟨⟨c1, c2⟩, ⟨w1, w2, i1, i2⟩⟩, e0⟩, e1⟩, e2⟩, e3⟩, hf⟩, hd⟩, hdone⟩, hc⟩, hft⟩, hcur⟩, hprev⟩ := h
  have hlegal : s.blk.busy = true ∨ s.blk.state = .done → s.blk.ConfigLegal s.maxRowBytes := fun hb =>
    let ⟨a, b, c, d, e⟩ := hc hb
    ⟨a, b, c, d, e⟩
  refine ⟨c1, c2, ⟨w1, w2, i1, i2, ?_, hf, hd, fun hs => ⟨s.blk, hlegal (.inr hs), hdone hs⟩, fun hb => hlegal (.inl hb), hft, hcur,
    hprev⟩⟩
  unfold Block.ErrorFieldsLegal
  split <;> rename_i he
  · exact e0 he
  · exact e1 he
  · exact e2 he
  · exact e3 he

/-- Each small state of a session meets the invariant: one for each STATE, each error, and each corner of the two rows. -/
theorem small_states_inv :
    ∀ b ∈ [idleB, filter0, filter1, data00 0#3, data01 1#3 0x90#8, data10 2#3 0x10#8, data11 4#3 1#8 2#8 3#8, doneB false, doneB true,
      truncatedB, unknownB, configB], (mk b [] []).Inv := by
  have h : ∀ b ∈ [idleB, filter0, filter1, data00 0#3, data01 1#3 0x90#8, data10 2#3 0x10#8, data11 4#3 1#8 2#8 3#8, doneB false,
      doneB true, truncatedB, unknownB, configB], invCheck (mk b [] []) = true := by decide
  exact fun b hb => inv_of_checks (h b hb)

/-! ## Witnesses: reset and the register space -/

theorem witness_ResetStepRestoresEveryItem :
    (mk (data11 4#3 1#8 2#8 3#8) [.reset, .run] []).host.sched = .reset :: [.run] := rfl

theorem witness_RegisterReadReturnsItsFields :
    ∀ off ∈ [0x00, 0x04, 0x08, 0x0C, 0x10, 0x14, 0x18, 0x1C, 0x20, 0x24, 0x28, 0x2C, 0x30, 0x34, 0x38, 0x3C],
      (mk (doneB true) [.read 32 off] []).host.sched = .read 32 off :: [] ∧ off % 4 = 0 ∧ off < 0x40 := by decide

theorem witness_StatusWordIsOneOfTheListed :
    (mk idleB [] []).Inv ∧ (mk filter1 [] []).Inv ∧ (mk (data00 0#3) [] []).Inv ∧ (mk (doneB true) [] []).Inv ∧
      (mk truncatedB [] []).Inv ∧ (mk unknownB [] []).Inv ∧ (mk configB [] []).Inv ∧
      [idleB, filter1, data00 0#3, doneB true, truncatedB, unknownB, configB].map Block.state =
        [.idle, .filter, .data, .done, .error, .error, .error] :=
  ⟨small_states_inv _ (by decide), small_states_inv _ (by decide), small_states_inv _ (by decide), small_states_inv _ (by decide),
    small_states_inv _ (by decide), small_states_inv _ (by decide), small_states_inv _ (by decide), rfl⟩

theorem witness_ConfigurationWriteStoresItsField :
    ∀ off ∈ [0x08, 0x0C, 0x10, 0x14, 0x18],
      (mk (doneB false) [.write 32 off 0xFFFFFFFF#32] []).host.sched = .write 32 off 0xFFFFFFFF#32 :: [] ∧
        (doneB false).busy = false := by decide

theorem witness_ConfigurationWriteIgnoredWhileBusy :
    ∀ off ∈ [0x08, 0x0C, 0x10, 0x14, 0x18],
      (mk (data00 0#3) [.write 32 off 9#32] []).host.sched = .write 32 off 9#32 :: [] ∧ (data00 0#3).busy = true ∧
        (off = 0x08 ∨ off = 0x0C ∨ off = 0x10 ∨ off = 0x14 ∨ off = 0x18) := by decide

theorem witness_ReadOnlyAndUnmappedWritesChangeNothing :
    (∀ off ∈ [0x04, 0x1C, 0x20, 0x24, 0x28, 0x2C, 0x30, 0x34, 0x38, 0x3C],
      (mk (doneB true) [.write 32 off 0xFFFFFFFF#32] []).host.sched = .write 32 off 0xFFFFFFFF#32 :: []) ∧
    ∀ off ∈ [0x38, 0x3C], (mk (doneB true) [.read 32 off] []).host.sched = .read 32 off :: [] := by decide

theorem witness_MeaninglessAccessIsRefused :
    ((mk idleB [.read 8 0x00] []).host.sched = .read 8 0x00 :: [] ∧ 8 ≠ 32) ∧
    ((mk idleB [.write 64 0x14 0#32] []).host.sched = .write 64 0x14 0#32 :: [] ∧ 64 ≠ 32) ∧
    ((mk idleB [.read 32 0x3F] []).host.sched = .read 32 0x3F :: [] ∧ 0x3F % 4 ≠ 0) ∧
    ((mk idleB [.write 32 0x40 0#32] []).host.sched = .write 32 0x40 0#32 :: [] ∧ 0x40 % 4 = 0 ∧ 0x40 ≤ 0x40) := by decide

/-! ## Witnesses: CTRL writes, START and CLEAR -/

theorem witness_CtrlWriteSetsInterruptEnable :
    ((mk (data00 0#3) [.write 32 0x00 5#32] []).host.sched = .write 32 0x00 5#32 :: []) ∧
    ((mk (doneB false) [.write 32 0x00 4#32] []).host.sched = .write 32 0x00 4#32 :: [] ∧ (4#32).getLsbD 0 = false ∧
      (4#32).getLsbD 1 = false) := by decide

/-- One pair of words for each command: START, CLEAR and none. -/
theorem witness_CtrlWriteIgnoresItsIgnoredBits :
    (∃ t, step ((mk idleB [] []).setSched [.write 32 0x00 3#32]) = .next t ∧
      (3#32).getLsbD 0 = (0xFFFFFFF9#32).getLsbD 0 ∧ (3#32).getLsbD 2 = (0xFFFFFFF9#32).getLsbD 2 ∧
      ((3#32).getLsbD 0 = false → (3#32).getLsbD 1 = (0xFFFFFFF9#32).getLsbD 1)) ∧
    (∃ t, step ((mk idleB [] []).setSched [.write 32 0x00 6#32]) = .next t ∧
      (6#32).getLsbD 0 = (0x8000000E#32).getLsbD 0 ∧ (6#32).getLsbD 2 = (0x8000000E#32).getLsbD 2 ∧
      ((6#32).getLsbD 0 = false → (6#32).getLsbD 1 = (0x8000000E#32).getLsbD 1)) ∧
    (∃ t, step ((mk idleB [] []).setSched [.write 32 0x00 0#32]) = .next t ∧
      (0#32).getLsbD 0 = (0xFFFFFFF8#32).getLsbD 0 ∧ (0#32).getLsbD 2 = (0xFFFFFFF8#32).getLsbD 2 ∧
      ((0#32).getLsbD 0 = false → (0#32).getLsbD 1 = (0xFFFFFFF8#32).getLsbD 1)) :=
  ⟨⟨_, rfl, by decide⟩, ⟨_, rfl, by decide⟩, ⟨_, rfl, by decide⟩⟩

/-- One block not BUSY for each check of START, each failing at its boundary, and the one that passes them all. -/
theorem witness_StartFollowsItsChecksInOrder :
    ∀ b ∈ [{ idleB with width := 0#32 }, { idleB with height := 0#32 }, { idleB with bpp := 2#3 }, { idleB with width := 3#32 },
      { idleB with inlen := 5#64 }, idleB, doneB true, unknownB], Block.busy b = false := by decide

theorem idleB_configLegal : idleB.ConfigLegal 2 := ⟨by decide, by decide, by decide, by decide, by decide⟩

theorem witness_StartOpensASessionOrIsIgnoredWhileBusy :
    ((mk idleB [] []).blk.busy = false ∧ (mk idleB [] []).blk.ConfigLegal (mk idleB [] []).maxRowBytes) ∧
      (mk (data00 0#3) [] []).blk.busy = true := ⟨⟨rfl, idleB_configLegal⟩, rfl⟩

theorem witness_ClearAcknowledgesOrIsIgnoredWhileBusy :
    (mk (doneB true) [] []).blk.busy = false ∧ (mk unknownB [] []).blk.busy = false ∧ (mk filter1 [] []).blk.busy = true := by
  decide

theorem witness_ClearInIdleOnlySetsInterruptEnable : (mk idleB [] []).Inv ∧ (mk idleB [] []).blk.state = .idle :=
  ⟨small_states_inv _ (by decide), rfl⟩

/-! ## Witnesses: the filter step -/

theorem witness_FilterInstructionLatchesItsCode :
    ∀ p ∈ [(Instr.filterNone, 0#3), (.filterSub, 1#3), (.filterUp, 2#3), (.filterAverage, 3#3), (.filterPaeth, 4#3)],
      p ∈ [(Instr.filterNone, 0#3), (.filterSub, 1#3), (.filterUp, 2#3), (.filterAverage, 3#3), (.filterPaeth, 4#3)] ∧
        (mk filter1 [] []).blk.state = .filter := by decide

/-- Both shapes of the host's plan, at the first and the last legal code. -/
theorem witness_FilterStepConsumesAndLatches :
    ((mk filter0 [] [0#8, 7#8]).StreamTurn (mk filter0 [] [0#8, 7#8]) ∧ (0#8).toNat ≤ 4) ∧
    ((mk filter0 [.run, .reset] [4#8]).StreamTurn (mk filter0 [.reset] [4#8]) ∧ (4#8).toNat ≤ 4) ∧
    (mk filter0 [] [0#8, 7#8]).blk.state = .filter ∧ (mk filter0 [] [0#8, 7#8]).host.offering = true ∧
    (mk filter0 [] [0#8, 7#8]).host.input = 0#8 :: [7#8] ∧ (mk filter0 [.run, .reset] [4#8]).host.input = 4#8 :: [] :=
  ⟨⟨.inl ⟨rfl, rfl⟩, by decide⟩, ⟨.inr ⟨_, rfl, rfl⟩, by decide⟩, rfl, rfl, rfl, rfl⟩

/-- The first and the last illegal code. -/
theorem witness_IllegalFilterByteEndsTheSession :
    ((mk filter0 [] [5#8, 7#8]).StreamTurn (mk filter0 [] [5#8, 7#8]) ∧ 4 < (5#8).toNat) ∧
    ((mk filter0 [.run, .read 32 0x04] [255#8]).StreamTurn (mk filter0 [.read 32 0x04] [255#8]) ∧ 4 < (255#8).toNat) ∧
    (mk filter0 [] [5#8, 7#8]).blk.state = .filter ∧ (mk filter0 [] [5#8, 7#8]).host.offering = true ∧
    (mk filter0 [] [5#8, 7#8]).host.input = 5#8 :: [7#8] ∧ (mk filter0 [.run, .read 32 0x04] [255#8]).host.input = 255#8 :: [] ∧
    ∃ t t', step (mk filter0 [.run, .read 32 0x04] [255#8]) = .next t ∧ t.host.sched = [.read 32 0x04] ∧ runSteps 2 t = .next t' :=
  ⟨⟨.inl ⟨rfl, rfl⟩, by decide⟩, ⟨.inr ⟨_, rfl, rfl⟩, by decide⟩, rfl, rfl, rfl, rfl, _, _, rfl, rfl, rfl⟩

theorem witness_UnknownFilterTypeIsRaisedBetweenRows :
    ∃ t, (mk filter1 [] [5#8]).Inv ∧ (mk filter1 [] [5#8]).blk.errCode ≠ .unknownFilterType ∧
      step (mk filter1 [] [5#8]) = .next t ∧ t.blk.errCode = .unknownFilterType :=
  ⟨_, inv_of_checks (by decide), by decide, rfl, rfl⟩

/-! ## Witnesses: the data step -/

/-- The hypotheses of the five statements about the byte an instruction delivers. -/
abbrev ResultHyps (s : State) (x : Byte) (rest : List Byte) (a b c : Byte) : Prop :=
  s.Inv ∧ s.DataEnabled x rest ∧ s.blk.MuxGives a b c

theorem muxGives_of_checks {k : Block} {a b c : Byte}
    (h : (if k.posByte.toNat < k.bpp.toNat then a = 0#8 else cellAt k.cur (k.posByte.toNat - k.bpp.toNat) = some a) ∧
      (if k.posRow = 0#32 then b = 0#8 else cellAt k.prev k.posByte.toNat = some b) ∧
      (if k.posByte.toNat < k.bpp.toNat ∨ k.posRow = 0#32 then c = 0#8
        else cellAt k.prev (k.posByte.toNat - k.bpp.toNat) = some c)) : k.MuxGives a b c := h

/-- They are met in each of the four cases of the mux: both boundaries, the first row, the left edge, neither. -/
theorem every_corner_meets_ResultHyps :
    ResultHyps (mk (data00 0#3) [] [7#8, 8#8]) 7#8 [8#8] 0#8 0#8 0#8 ∧
    ResultHyps (mk (data01 1#3 0x90#8) [] [7#8]) 7#8 [] 0x90#8 0#8 0#8 ∧
    ResultHyps (mk (data10 2#3 0x10#8) [] [7#8]) 7#8 [] 0#8 0x10#8 0#8 ∧
    ResultHyps (mk (data11 4#3 1#8 2#8 3#8) [] [255#8]) 255#8 [] 1#8 2#8 3#8 :=
  ⟨⟨inv_of_checks (by decide), ⟨rfl, rfl, rfl, rfl⟩, muxGives_of_checks (by decide)⟩,
    ⟨inv_of_checks (by decide), ⟨rfl, rfl, rfl, rfl⟩, muxGives_of_checks (by decide)⟩,
    ⟨inv_of_checks (by decide), ⟨rfl, rfl, rfl, rfl⟩, muxGives_of_checks (by decide)⟩,
    ⟨inv_of_checks (by decide), ⟨rfl, rfl, rfl, rfl⟩, muxGives_of_checks (by decide)⟩⟩

/-- NONE needs no operand, so the hypothesis on the mux is more than its statement asks. -/
theorem witness_NoneDeliversItsInput : ResultHyps (mk (data11 4#3 1#8 2#8 3#8) [] [255#8]) 255#8 [] 1#8 2#8 3#8 :=
  every_corner_meets_ResultHyps.2.2.2

theorem witness_SubDeliversSumWithLeft :
    ResultHyps (mk (data01 1#3 0x90#8) [] [7#8]) 7#8 [] 0x90#8 0#8 0#8 ∧
    (ResultHyps (mk (data10 2#3 0x10#8) [] [7#8]) 7#8 [] 0#8 0x10#8 0#8 ∧ (data10 2#3 0x10#8).posByte.toNat < (data10 2#3 0x10#8).bpp.toNat) :=
  ⟨every_corner_meets_ResultHyps.2.1, every_corner_meets_ResultHyps.2.2.1, by decide⟩

theorem witness_UpDeliversSumWithAbove :
    ResultHyps (mk (data10 2#3 0x10#8) [] [7#8]) 7#8 [] 0#8 0x10#8 0#8 ∧
    (ResultHyps (mk (data01 1#3 0x90#8) [] [7#8]) 7#8 [] 0x90#8 0#8 0#8 ∧ (data01 1#3 0x90#8).posRow = 0#32) :=
  ⟨every_corner_meets_ResultHyps.2.2.1, every_corner_meets_ResultHyps.2.1, rfl⟩

theorem witness_AverageDeliversSumWithExactHalf :
    ResultHyps (mk (data11 4#3 1#8 2#8 3#8) [] [255#8]) 255#8 [] 1#8 2#8 3#8 ∧
    (ResultHyps (mk (data01 1#3 0x90#8) [] [7#8]) 7#8 [] 0x90#8 0#8 0#8 ∧ (data01 1#3 0x90#8).posRow = 0#32) ∧
    (ResultHyps (mk (data10 2#3 0x10#8) [] [7#8]) 7#8 [] 0#8 0x10#8 0#8 ∧ (data10 2#3 0x10#8).posByte.toNat < (data10 2#3 0x10#8).bpp.toNat) ∧
    (ResultHyps (mk (data00 0#3) [] [7#8, 8#8]) 7#8 [8#8] 0#8 0#8 0#8 ∧ (data00 0#3).posRow = 0#32 ∧
      (data00 0#3).posByte.toNat < (data00 0#3).bpp.toNat) :=
  ⟨every_corner_meets_ResultHyps.2.2.2, ⟨every_corner_meets_ResultHyps.2.1, rfl⟩,
    ⟨every_corner_meets_ResultHyps.2.2.1, by decide⟩, every_corner_meets_ResultHyps.1, rfl, by decide⟩

theorem witness_PaethDeliversSumWithPredictor :
    ResultHyps (mk (data11 4#3 1#8 2#8 3#8) [] [255#8]) 255#8 [] 1#8 2#8 3#8 ∧
    (ResultHyps (mk (data01 1#3 0x90#8) [] [7#8]) 7#8 [] 0x90#8 0#8 0#8 ∧ (data01 1#3 0x90#8).posRow = 0#32) ∧
    (ResultHyps (mk (data10 2#3 0x10#8) [] [7#8]) 7#8 [] 0#8 0x10#8 0#8 ∧ (data10 2#3 0x10#8).posByte.toNat < (data10 2#3 0x10#8).bpp.toNat) ∧
    (ResultHyps (mk (data00 0#3) [] [7#8, 8#8]) 7#8 [8#8] 0#8 0#8 0#8 ∧ (data00 0#3).posRow = 0#32 ∧
      (data00 0#3).posByte.toNat < (data00 0#3).bpp.toNat) := witness_AverageDeliversSumWithExactHalf

theorem every_filter_is_listed :
    ∀ i ∈ [Instr.filterNone, .filterSub, .filterUp, .filterAverage, .filterPaeth],
      i ∈ [Instr.filterNone, .filterSub, .filterUp, .filterAverage, .filterPaeth] := fun _ h => h

theorem witness_DataStepAdvancesWithinARow :
    (mk (data10 2#3 0x10#8) [] [7#8]).Inv ∧ (mk (data10 2#3 0x10#8) [] [7#8]).DataEnabled 7#8 [] ∧
      Instr.filterUp ∈ [Instr.filterNone, .filterSub, .filterUp, .filterAverage, .filterPaeth] ∧
      (data10 2#3 0x10#8).posByte.toNat + 1 < (data10 2#3 0x10#8).rowBytes :=
  ⟨inv_of_checks (by decide), ⟨rfl, rfl, rfl, rfl⟩, by decide, by decide⟩

/-- The last byte of a row that is not the last row, and of the last row. -/
theorem witness_LastDataStepCommitsTheRow :
    ((mk (data01 1#3 0x90#8) [] [7#8]).Inv ∧ (mk (data01 1#3 0x90#8) [] [7#8]).DataEnabled 7#8 [] ∧
      (data01 1#3 0x90#8).posByte.toNat + 1 = (data01 1#3 0x90#8).rowBytes ∧
      (data01 1#3 0x90#8).posRow.toNat + 1 ≠ (data01 1#3 0x90#8).height.toNat) ∧
    ((mk (data11 4#3 1#8 2#8 3#8) [] [7#8]).Inv ∧ (mk (data11 4#3 1#8 2#8 3#8) [] [7#8]).DataEnabled 7#8 [] ∧
      (data11 4#3 1#8 2#8 3#8).posByte.toNat + 1 = (data11 4#3 1#8 2#8 3#8).rowBytes ∧
      (data11 4#3 1#8 2#8 3#8).posRow.toNat + 1 = (data11 4#3 1#8 2#8 3#8).height.toNat) ∧
    Instr.filterSub ∈ [Instr.filterNone, .filterSub, .filterUp, .filterAverage, .filterPaeth] :=
  ⟨⟨inv_of_checks (by decide), ⟨rfl, rfl, rfl, rfl⟩, by decide, by decide⟩,
    ⟨inv_of_checks (by decide), ⟨rfl, rfl, rfl, rfl⟩, by decide, by decide⟩, by decide⟩

theorem witness_DataStepLeavesTheRestUnchanged :
    (∃ t, exec .filterUp (mk (data10 2#3 0x10#8) [] [7#8]) = .next t ∧ (mk (data10 2#3 0x10#8) [] [7#8]).blk.state = .data ∧
      (data10 2#3 0x10#8).posByte.toNat + 1 < (data10 2#3 0x10#8).rowBytes) ∧
    ∃ t, exec .filterPaeth (mk (data11 4#3 1#8 2#8 3#8) [] [7#8]) = .next t ∧ (mk (data11 4#3 1#8 2#8 3#8) [] [7#8]).blk.state = .data :=
  ⟨⟨_, rfl, rfl, by decide⟩, ⟨_, rfl, rfl⟩⟩

/-- Each row of the table, enabled and held. -/
theorem witness_StreamStepIsEnabledAsTheTableSays :
    (∀ b ∈ [idleB, filter0, filter1, data00 0#3, data01 1#3 0x90#8, data10 2#3 0x10#8, data11 4#3 1#8 2#8 3#8, doneB false, doneB true,
      truncatedB, unknownB, configB], (mk b [] []).Inv ∧ (mk b [] []).StreamTurn (mk b [] []) ∧ (mk b [] []).host.input = []) ∧
    ((mk filter0 [.run] [9#8]).Inv ∧ (mk filter0 [.run] [9#8]).StreamTurn (mk filter0 [] [9#8]) ∧
      (mk filter0 [.run] [9#8]).host.offering = true ∧ (mk filter0 [.run] [9#8]).host.input = 9#8 :: []) ∧
    ((mk (data00 0#3) [] [9#8]).Inv ∧ (mk (data00 0#3) [] [9#8]).host.accepting = true ∧
      (mk (data00 0#3) [] [9#8]).host.input = 9#8 :: []) ∧
    (((mk (data00 0#3) [] [9#8]).setLines true false).Inv ∧
      ((mk (data00 0#3) [] [9#8]).setLines true false).host.accepting = false) ∧
    ((mk filter0 [] [9#8]).setLines false true).Inv ∧ ((mk filter0 [] [9#8]).setLines false true).host.offering = false :=
  ⟨fun b hb => ⟨small_states_inv b hb, .inl ⟨rfl, rfl⟩, rfl⟩,
    ⟨inv_of_checks (by decide), .inr ⟨_, rfl, rfl⟩, rfl, rfl⟩, ⟨inv_of_checks (by decide), rfl, rfl⟩,
    ⟨inv_of_checks (by decide), rfl⟩, inv_of_checks (by decide), rfl⟩

/-- The same interior byte in two machines that differ in what no operand reads: IRQ_EN, FT_CUR, MAX_ROW_BYTES, a third PREV cell,
the input that follows. -/
def nearS : State := mk (data11 4#3 1#8 2#8 3#8) [] [7#8]

def nearT : State :=
  { mk { data11 2#3 1#8 2#8 3#8 with irqEn := true, prev := [(0, 3#8), (1, 2#8), (2, 77#8)] } [] [7#8, 9#8] with maxRowBytes := 3 }

theorem witness_DataStepLooksBackOneRowOnly :
    (nearS.Inv ∧ nearT.Inv ∧ nearS.DataEnabled 7#8 [] ∧ nearT.DataEnabled 7#8 [9#8]) ∧
    Instr.filterPaeth ∈ [Instr.filterNone, .filterSub, .filterUp, .filterAverage, .filterPaeth] ∧
    nearS.blk.posRow = nearT.blk.posRow ∧ nearS.blk.posByte = nearT.blk.posByte ∧ nearS.blk.bpp = nearT.blk.bpp ∧
    (nearS.blk.bpp.toNat ≤ nearS.blk.posByte.toNat ∧ cellAt nearS.blk.cur 0 = cellAt nearT.blk.cur 0) ∧
    (nearS.blk.posRow ≠ 0#32 ∧ cellAt nearS.blk.prev 1 = cellAt nearT.blk.prev 1) ∧
    cellAt nearS.blk.prev 0 = cellAt nearT.blk.prev 0 :=
  ⟨⟨inv_of_checks (by decide), inv_of_checks (by decide), ⟨rfl, rfl, rfl, rfl⟩, ⟨rfl, rfl, rfl, rfl⟩⟩, by decide, rfl, rfl, rfl,
    by decide, by decide, by decide⟩

/-- One operand triple for each of the three outcomes. -/
theorem witness_PaethPicksTheClosestCandidate :
    (paethDist ⟨1#8, 2#8, 3#8⟩ 1#8 ≤ paethDist ⟨1#8, 2#8, 3#8⟩ 2#8 ∧ paethDist ⟨1#8, 2#8, 3#8⟩ 1#8 ≤ paethDist ⟨1#8, 2#8, 3#8⟩ 3#8) ∧
    (¬ paethDist ⟨10#8, 20#8, 0#8⟩ 10#8 ≤ paethDist ⟨10#8, 20#8, 0#8⟩ 20#8 ∧
      paethDist ⟨10#8, 20#8, 0#8⟩ 20#8 ≤ paethDist ⟨10#8, 20#8, 0#8⟩ 0#8) ∧
    (¬ paethDist ⟨200#8, 10#8, 100#8⟩ 200#8 ≤ paethDist ⟨200#8, 10#8, 100#8⟩ 100#8 ∧
      ¬ paethDist ⟨200#8, 10#8, 100#8⟩ 10#8 ≤ paethDist ⟨200#8, 10#8, 100#8⟩ 100#8) := by decide

theorem witness_BoundaryIdentitiesOfTheFilters :
    (3#8 : Byte) ≠ 1#8 ∧ paethDist ⟨3#8, 1#8, 2#8⟩ 3#8 = paethDist ⟨3#8, 1#8, 2#8⟩ 1#8 := by decide

/-! ## Witnesses: encoding and the step -/

/-- The extremes of the operands. -/
theorem witness_DecodeOfEncodeIsTheInstruction :
    ∀ i ∈ [Instr.filterNone, .filterPaeth, .start false 0#32, .start true 0xFFFFFFFA#32, .clear false 0#32, .clear true 0xFFFFFFF8#32],
      i.wf = true := by decide

theorem witness_EncodeOfDecodeIsTheWord :
    decode (.ft8 4#8) = .ok .filterPaeth ∧ decode (.ctrl 0xFFFFFFFF#32) = .ok (.start true 0xFFFFFFFA#32) ∧
      decode (.ctrl 0xFFFFFFFA#32) = .ok (.clear false 0xFFFFFFF8#32) := ⟨rfl, rfl, rfl⟩

theorem witness_StepRunsTheDecodedInstruction :
    ((mk filter0 [.run] [3#8]).StreamTurn (mk filter0 [] [3#8]) ∧ (mk filter0 [.run] [3#8]).blk.state = .filter ∧
      (mk filter0 [.run] [3#8]).host.offering = true ∧ (mk filter0 [.run] [3#8]).host.input = 3#8 :: [] ∧
      decode (.ft8 3#8) = .ok .filterAverage) ∧
    ((mk (data11 4#3 1#8 2#8 3#8) [] [7#8]).StreamTurn (mk (data11 4#3 1#8 2#8 3#8) [] [7#8]) ∧
      (mk (data11 4#3 1#8 2#8 3#8) [] [7#8]).DataEnabled 7#8 [] ∧
      decode (.ft8 ((data11 4#3 1#8 2#8 3#8).ftCur.zeroExtend 8)) = .ok .filterPaeth) ∧
    ((mk idleB [.write 32 0x00 6#32] []).host.sched = .write 32 0x00 6#32 :: [] ∧ decode (.ctrl 6#32) = .ok (.clear true 0#32)) :=
  ⟨⟨.inr ⟨_, rfl, rfl⟩, rfl, rfl, rfl, rfl⟩, ⟨.inl ⟨rfl, rfl⟩, ⟨rfl, rfl, rfl, rfl⟩, rfl⟩, rfl, rfl⟩

theorem witness_PlacedInstructionRunsNext :
    decodeTableWord 8 4 = some .filterPaeth ∧ decodeTableWord 32 0xFFFFFFFF = some (.start true 0xFFFFFFFA#32) := ⟨rfl, rfl⟩

/-! ## Witnesses: invariants and whole-machine rules -/

/-- A step that commits the last row, from a state that meets the invariant. -/
theorem last_step_answers :
    ∃ t, (mk (data11 4#3 1#8 2#8 3#8) [] [7#8]).Inv ∧ step (mk (data11 4#3 1#8 2#8 3#8) [] [7#8]) = .next t ∧ t.blk.state = .done :=
  ⟨_, inv_of_checks (by decide), rfl, rfl⟩

theorem witness_EveryStepKeepsTheInvariant :
    ∃ t, (mk (data11 4#3 1#8 2#8 3#8) [] [7#8]).Inv ∧ step (mk (data11 4#3 1#8 2#8 3#8) [] [7#8]) = .next t :=
  last_step_answers.elim fun t h => ⟨t, h.1, h.2.1⟩

/-- HEIGHT written in DONE: the state meets the invariant and no longer R42 as listed. -/
theorem reconfigured_done_inv : (mk { doneB true with height := 9#32 } [] []).Inv :=
  have h : (doneB true).Inv 2 := (small_states_inv (doneB true) (by decide)).blk
  ⟨by decide, by decide, h.prev_wf, h.cur_wf, h.prev_inside, h.cur_inside, h.errors, nofun, nofun, h.at_done, nofun, h.latched, nofun,
    nofun⟩

/-- DONE kept through a hold, the write that is the exception, the state it leaves, and the step that enters DONE. -/
theorem witness_ListedInvariantsHoldUntilReconfigured :
    (∃ t, (mk (doneB true) [] [7#8]).Inv ∧ step (mk (doneB true) [] [7#8]) = .next t ∧ (doneB true).Listed 2) ∧
    (∃ t, (mk (doneB true) [.write 32 0x0C 9#32] []).Inv ∧ step (mk (doneB true) [.write 32 0x0C 9#32] []) = .next t ∧
      ¬ t.blk.Listed t.maxRowBytes) ∧
    (∃ t, (mk { doneB true with height := 9#32 } [] []).Inv ∧ step (mk { doneB true with height := 9#32 } [] []) = .next t) ∧
    ∃ t, (mk (data11 4#3 1#8 2#8 3#8) [] [7#8]).Inv ∧ step (mk (data11 4#3 1#8 2#8 3#8) [] [7#8]) = .next t :=
  ⟨⟨_, inv_of_checks (by decide), rfl, ⟨by decide, by decide, by decide, by decide, by decide, by decide⟩⟩,
    ⟨_, inv_of_checks (by decide), rfl, fun h => absurd (h.at_done rfl).1 (by decide)⟩, ⟨_, reconfigured_done_inv, rfl⟩,
    witness_EveryStepKeepsTheInvariant⟩

theorem witness_NoStepFaults : (mk (data11 4#3 1#8 2#8 3#8) [] [7#8]).Inv := inv_of_checks (by decide)

theorem witness_EveryStepKeepsTheRowBufferForm :
    ∃ t, RowBuf.wf (data11 4#3 1#8 2#8 3#8).prev ∧ RowBuf.wf (data11 4#3 1#8 2#8 3#8).cur ∧
      step (mk (data11 4#3 1#8 2#8 3#8) [] [7#8]) = .next t := ⟨_, by decide, by decide, rfl⟩

theorem witness_NoStepChangesTheBufferSize : ∃ t, step (mk (data11 4#3 1#8 2#8 3#8) [] [7#8]) = .next t := ⟨_, rfl⟩

/-- A configuration write to a running session. -/
theorem witness_ConfigurationIsFixedWhileBusy :
    ∃ t, (mk (data00 0#3) [.write 32 0x08 9#32] []).blk.busy = true ∧
      (∀ es, (mk (data00 0#3) [.write 32 0x08 9#32] []).host.sched ≠ .reset :: es) ∧
      step (mk (data00 0#3) [.write 32 0x08 9#32] []) = .next t := ⟨_, rfl, fun _ h => by simp [mk] at h, rfl⟩

/-- A CLEAR of a running session; and the step that ends one. -/
theorem witness_NothingButResetAbandonsASession :
    (∃ t, (mk filter1 [.write 32 0x00 2#32] []).blk.busy = true ∧
      (∀ es, (mk filter1 [.write 32 0x00 2#32] []).host.sched ≠ .reset :: es) ∧
      step (mk filter1 [.write 32 0x00 2#32] []) = .next t ∧ t.blk.busy = true) ∧
    ∃ t, (mk (data11 4#3 1#8 2#8 3#8) [] [7#8]).blk.busy = true ∧
      (∀ es, (mk (data11 4#3 1#8 2#8 3#8) [] [7#8]).host.sched ≠ .reset :: es) ∧
      step (mk (data11 4#3 1#8 2#8 3#8) [] [7#8]) = .next t ∧ t.blk.state = .done :=
  ⟨⟨_, rfl, fun _ h => by simp [mk] at h, rfl, rfl⟩, ⟨_, rfl, fun _ h => by simp [mk, HostSide.reset] at h, rfl, rfl⟩⟩

/-- The last byte of the session still to come: 5 of NEEDED = 6 are consumed. -/
theorem witness_ARunningSessionHasConsumedFewerThanNeeded :
    (mk (data11 4#3 1#8 2#8 3#8) [] [7#8]).Inv ∧ (data11 4#3 1#8 2#8 3#8).busy = true ∧ (data11 4#3 1#8 2#8 3#8).consumed = 5 :=
  ⟨inv_of_checks (by decide), rfl, by decide⟩

/-- An outcome kept through an offered byte, and one left by a CLEAR. -/
theorem witness_OnlyCommandsAndResetLeaveAnOutcome :
    (∃ t, ((doneB true).state = .done ∨ (doneB true).state = .error) ∧ step (mk (doneB true) [] [7#8]) = .next t) ∧
    ∃ t, (unknownB.state = .done ∨ unknownB.state = .error) ∧ step (mk unknownB [.write 32 0x00 2#32] []) = .next t :=
  ⟨⟨_, .inl rfl, rfl⟩, ⟨_, .inr rfl, rfl⟩⟩

theorem witness_DoneIsEnteredAfterTheWholeImage :
    ∃ t, (mk (data11 4#3 1#8 2#8 3#8) [] [7#8]).Inv ∧ (data11 4#3 1#8 2#8 3#8).state ≠ .done ∧
      step (mk (data11 4#3 1#8 2#8 3#8) [] [7#8]) = .next t ∧ t.blk.state = .done :=
  ⟨_, inv_of_checks (by decide), by decide, rfl, rfl⟩

/-- The level rising on the last byte and on a CTRL write, and falling on a CLEAR and on a CTRL write. -/
theorem witness_InterruptLevelRisesAndFallsAsStated :
    (∃ t, step (mk { data11 4#3 1#8 2#8 3#8 with irqEn := true } [] [7#8]) = .next t ∧
      Block.irq { data11 4#3 1#8 2#8 3#8 with irqEn := true } = false ∧ t.blk.irq = true) ∧
    (∃ t, step (mk (doneB false) [.write 32 0x00 4#32] []) = .next t ∧ (doneB false).irq = false ∧ t.blk.irq = true) ∧
    (∃ t, step (mk (doneB true) [.write 32 0x00 6#32] []) = .next t ∧ (doneB true).irq = true ∧ t.blk.irq = false) ∧
    ∃ t, step (mk (doneB true) [.write 32 0x00 0#32] []) = .next t ∧ (doneB true).irq = true ∧ t.blk.irq = false :=
  ⟨⟨_, rfl, rfl, rfl⟩, ⟨_, rfl, rfl, rfl⟩, ⟨_, rfl, rfl, rfl⟩, ⟨_, rfl, rfl, rfl⟩⟩

/-- A byte consumed and one delivered; a hold; an illegal filter byte consumed. -/
theorem witness_EveryConsumedByteIsCounted :
    (∃ t, (mk (data10 2#3 0x10#8) [] [7#8]).Inv ∧ (data10 2#3 0x10#8).busy = true ∧
      (∀ es, (mk (data10 2#3 0x10#8) [] [7#8]).host.sched ≠ .reset :: es) ∧ step (mk (data10 2#3 0x10#8) [] [7#8]) = .next t) ∧
    (∃ t, (mk filter1 [] []).Inv ∧ step (mk filter1 [] []) = .next t) ∧
    ∃ t, (mk filter1 [] [9#8]).Inv ∧ step (mk filter1 [] [9#8]) = .next t ∧ t.blk.state = .error :=
  ⟨⟨_, inv_of_checks (by decide), rfl, fun _ h => by simp [mk, HostSide.reset] at h, rfl⟩, ⟨_, inv_of_checks (by decide), rfl⟩,
    ⟨_, inv_of_checks (by decide), rfl, rfl⟩⟩

theorem witness_EveryDeliveredByteIsCounted :
    (∃ t, step (mk (doneB true) [] [7#8]) = .next t ∧ (doneB true).busy = false) ∧
    ∃ t, (mk (data10 2#3 0x10#8) [] [7#8]).Inv ∧ (data10 2#3 0x10#8).busy = true ∧
      (∀ es, (mk (data10 2#3 0x10#8) [] [7#8]).host.sched ≠ .reset :: es) ∧ step (mk (data10 2#3 0x10#8) [] [7#8]) = .next t :=
  ⟨⟨_, rfl, rfl⟩, ⟨_, inv_of_checks (by decide), rfl, fun _ h => by simp [mk, HostSide.reset] at h, rfl⟩⟩

/-- A session supplied with exactly the bytes it still needs, one of them an illegal filter byte. -/
theorem witness_ASuppliedSessionEnds :
    (mk filter0 [] [1#8, 2#8, 3#8, 9#8, 0#8, 0#8]).Inv ∧ filter0.busy = true ∧
      (mk filter0 [] [1#8, 2#8, 3#8, 9#8, 0#8, 0#8]).FreeRunning ∧ filter0.needed ≤ filter0.consumed + 6 :=
  ⟨inv_of_checks (by decide), rfl, ⟨rfl, rfl, rfl⟩, by decide⟩

/-! ## Witnesses: refinement and isolation -/

theorem prevHolds_of_checks {k : Block} {above : List Byte} (hr : k.posRow ≠ 0#32) (hl : above.length = k.rowBytes)
    (h : ∀ j, j < k.rowBytes → cellAt k.prev j = above[j]?) : k.PrevHolds above := by
  unfold Block.PrevHolds
  rw [if_neg hr]
  exact ⟨hl, h⟩

/-- The first row, and the last row under one that PREV holds. -/
theorem witness_RowMatchesTheReference :
    ((mk filter0 [] [1#8, 7#8, 8#8, 9#8]).Inv ∧ (mk filter0 [] [1#8, 7#8, 8#8, 9#8]).FreeRunning ∧ filter0.state = .filter ∧
      filter0.PrevHolds [] ∧ (1#8).toNat ≤ 4 ∧ [7#8, 8#8].length = filter0.rowBytes ∧
      (mk filter0 [] [1#8, 7#8, 8#8, 9#8]).host.input = 1#8 :: [7#8, 8#8] ++ [9#8]) ∧
    ((mk filter1 [] [4#8, 7#8, 8#8]).Inv ∧ (mk filter1 [] [4#8, 7#8, 8#8]).FreeRunning ∧ filter1.state = .filter ∧
      filter1.PrevHolds [0x10#8, 0x20#8] ∧ (4#8).toNat ≤ 4 ∧ [7#8, 8#8].length = filter1.rowBytes ∧
      (mk filter1 [] [4#8, 7#8, 8#8]).host.input = 4#8 :: [7#8, 8#8] ++ []) :=
  ⟨⟨inv_of_checks (by decide), ⟨rfl, rfl, rfl⟩, rfl, by simp [Block.PrevHolds, filter0, blk], by decide, rfl, rfl⟩,
    ⟨inv_of_checks (by decide), ⟨rfl, rfl, rfl⟩, rfl, prevHolds_of_checks (by decide) rfl (by decide), by decide, rfl, rfl⟩⟩

/-- A 2×2 image of a SUB row and an AVERAGE row, with one byte more than NEEDED. -/
theorem witness_ImageMatchesTheReference :
    (mk filter0 [] [1#8, 7#8, 8#8, 3#8, 9#8, 10#8, 11#8]).Inv ∧ filter0.state = .filter ∧ filter0.posRow = 0#32 ∧
      (mk filter0 [] [1#8, 7#8, 8#8, 3#8, 9#8, 10#8, 11#8]).FreeRunning ∧
      [(1#8, [7#8, 8#8]), (3#8, [9#8, 10#8])].length = filter0.height.toNat ∧
      (∀ row ∈ [((1#8 : Byte), ([7#8, 8#8] : List Byte)), (3#8, [9#8, 10#8])], row.1.toNat ≤ 4 ∧ row.2.length = filter0.rowBytes) ∧
      (mk filter0 [] [1#8, 7#8, 8#8, 3#8, 9#8, 10#8, 11#8]).host.input =
        imageStream [(1#8, [7#8, 8#8]), (3#8, [9#8, 10#8])] ++ [11#8] :=
  ⟨inv_of_checks (by decide), rfl, rfl, ⟨rfl, rfl, rfl⟩, rfl, by decide, by decide⟩

/-- The 2×2 image de 63 / 0e 80 with AVERAGE rows, filtered as in 95_test_vectors 2.11. -/
theorem witness_ImageRoundTripOnTheMachine :
    (mk filter0 [] [3#8, 0xde#8, 0xf4#8, 3#8, 0x9f#8, 0x48#8]).Inv ∧ filter0.state = .filter ∧ filter0.posRow = 0#32 ∧
      (mk filter0 [] [3#8, 0xde#8, 0xf4#8, 3#8, 0x9f#8, 0x48#8]).FreeRunning ∧
      [(3#8, [0xde#8, 0x63#8]), (3#8, [0x0e#8, 0x80#8])].length = filter0.height.toNat ∧
      (∀ row ∈ [((3#8 : Byte), ([0xde#8, 0x63#8] : List Byte)), (3#8, [0x0e#8, 0x80#8])],
        row.1.toNat ≤ 4 ∧ row.2.length = filter0.rowBytes) ∧
      (mk filter0 [] [3#8, 0xde#8, 0xf4#8, 3#8, 0x9f#8, 0x48#8]).host.input =
        imageStream (forwardImage filter0.bpp.toNat [] [(3#8, [0xde#8, 0x63#8]), (3#8, [0x0e#8, 0x80#8])]) ++ [] :=
  ⟨inv_of_checks (by decide), rfl, rfl, ⟨rfl, rfl, rfl⟩, rfl, by decide, by decide⟩

/-- A fresh block and one that has run a session. -/
theorem witness_StartForgetsEarlierSessions :
    (mk idleB [] []).blk.busy = false ∧ (mk (doneB true) [] []).blk.busy = false ∧ (mk idleB [] []).host = (mk (doneB true) [] []).host ∧
      (mk idleB [] []).maxRowBytes = (mk (doneB true) [] []).maxRowBytes ∧ idleB.width = (doneB true).width ∧
      idleB.height = (doneB true).height ∧ idleB.bpp = (doneB true).bpp ∧ idleB.inlen = (doneB true).inlen := by decide

/-- Two blocks at the first row, one with an earlier session's row in PREV, and two steps of a run. -/
theorem witness_SessionsAreIsolated :
    ∃ t, (mk filter0 [] [2#8, 9#8]).Inv ∧
      (mk filter0 [] [2#8, 9#8]).Alike (mk { filter0 with prev := [(0, 0x55#8), (1, 0x66#8)] } [] [2#8, 9#8]) ∧
      runSteps 2 (mk filter0 [] [2#8, 9#8]) = .next t :=
  ⟨_, inv_of_checks (by decide), ⟨rfl, rfl, rfl, fun _ h => absurd rfl h⟩, rfl⟩

end Sys2Proof.Tests
end

section
/-!
SUPPORT. MAX_ROW_BYTES is fixed per instance (00_scope R8): a move of the machine replaces its block or the host's side only.
-/

namespace Sys2Proof.Machine

/-- No move has MAX_ROW_BYTES among what it writes. -/
theorem moves_maxRowBytes {s t : State} {e : HostEvent} (h : Moves s e t) : t.maxRowBytes = s.maxRowBytes := by
  cases h with
  | hold => rfl
  | latch | reject => rw [setBlk_maxRowBytes, setInput_maxRowBytes]
  | data => rw [outWrite_maxRowBytes, setInput_maxRowBytes, setBlk_maxRowBytes]
  | lines => exact setLines_maxRowBytes ..
  | read => exact giveRead_maxRowBytes ..
  | write | ignored | start | clear | reset => exact setBlk_maxRowBytes ..

/-- Settles O43: neither taking the host's action from its plan nor the move that follows changes MAX_ROW_BYTES. -/
theorem noStepChangesTheBufferSize : Obligations.NoStepChangesTheBufferSize := by
  intro s t h
  obtain ⟨e, u, htake, hmove⟩ := step_moves h
  calc t.maxRowBytes = u.maxRowBytes := moves_maxRowBytes hmove
    _ = s.maxRowBytes := (takes_same htake).1

end Sys2Proof.Machine
end

section
/-!
SUPPORT. What the operations of the block do to its configuration, its error fields and its row buffers (10_state R20 to R27, R31,
R32).
-/

namespace Sys2Proof.Machine

/-! ## The configuration -/

/-- `l` has the configuration of `k` (R20 to R23). -/
def Block.SameConfig (k l : Block) : Prop :=
  l.width = k.width ∧ l.height = k.height ∧ l.bpp = k.bpp ∧ l.inlen = k.inlen

theorem startCheck_congr {k l : Block} (h : k.SameConfig l) (cap : Nat) : startCheck cap l = startCheck cap k := by
  obtain ⟨hw, hh, hb, hn⟩ := h
  simp [startCheck, hw, hh, hb, hn, rowBytes_congr hw hb, needed_congr hh hw hb]

/-- Whether START accepts a block depends on the configuration only. -/
theorem configLegal_congr {cap : Nat} {k l : Block} (hk : k.ConfigLegal cap) (h : k.SameConfig l) : l.ConfigLegal cap :=
  startCheck_none.1 ((startCheck_congr h cap).trans (startCheck_none.2 hk))

theorem rowBytes_pos {cap : Nat} {k : Block} (h : k.ConfigLegal cap) : 0 < k.rowBytes := by
  have hbpp : 0 < k.bpp.toNat := by rcases h.bpp_legal with hb | hb | hb <;> simp [hb]
  exact Nat.mul_pos h.width_pos hbpp

/-- The output of an accepted session can be counted in 64 bits: INLEN is at least as long. -/
theorem outTotal_lt {cap : Nat} {k : Block} (h : k.ConfigLegal cap) : k.outTotal < 2 ^ 64 :=
  calc k.outTotal ≤ k.needed := Nat.mul_le_mul_left _ (Nat.le_add_left ..)
    _ ≤ k.inlen.toNat := h.enough_input
    _ < 2 ^ 64 := k.inlen.isLt

/-! ## The error fields -/

theorem errorFieldsLegal_of_noError {k : Block} (hs : k.state ≠ .error) (hc : k.errCode = .noError)
    (hi : k.errInfo = 0#32) (hr : k.errRow = 0#32) : k.ErrorFieldsLegal := by
  simp [Block.ErrorFieldsLegal, hs, hc, hi, hr]

/-- Outside ERROR every error field is 0. -/
theorem noError_of_state_ne {k : Block} (h : k.ErrorFieldsLegal) (hs : k.state ≠ .error) :
    k.errCode = .noError ∧ k.errInfo = 0#32 ∧ k.errRow = 0#32 := by
  unfold Block.ErrorFieldsLegal at h
  cases hc : k.errCode <;> simp only [hc] at h
  case noError => exact ⟨rfl, h.2⟩
  all_goals exact absurd h.1 hs

/-- In ERROR there is an error code. -/
theorem errCode_ne_of_error {k : Block} (h : k.ErrorFieldsLegal) (hs : k.state = .error) : k.errCode ≠ .noError := by
  intro hc
  simp [Block.ErrorFieldsLegal, hc, hs] at h

/-! ## The row buffers -/

/-- A row buffer in canonical form whose cells lie inside a buffer of `cap` cells (R31, R32). -/
def RowBuf.Fits (cap : Nat) (b : RowBuf) : Prop := RowBuf.wf b ∧ ∀ cell ∈ b, cell.1 < cap

theorem nil_fits (cap : Nat) : RowBuf.Fits cap [] := ⟨nil_wf, by simp⟩

theorem setCell_fits {cap : Nat} {b : RowBuf} (h : RowBuf.Fits cap b) {j : Nat} (hj : j < cap) (v : Byte) :
    RowBuf.Fits cap (setCell b j v) := by
  refine ⟨setCell_wf h.1 j v, fun cell hm => ?_⟩
  rcases mem_setCell hm with rfl | hm
  · exact hj
  · exact h.2 cell hm

theorem copyCells_fits {cap n : Nat} {cur prev p : RowBuf} (h : RowBuf.Fits cap prev)
    (hp : copyCells cap cur n prev = .ok p) : RowBuf.Fits cap p :=
  ⟨copyCells_wf h.1 hp, copyCells_inside h.2 hp⟩

/-! ## START -/

@[simp] theorem start_prev (cap : Nat) (k : Block) : (k.start cap).prev = k.prev := by
  rcases start_cases cap k with ⟨-, h⟩ | ⟨c, i, -, h⟩ <;> simp [h]

@[simp] theorem start_cur (cap : Nat) (k : Block) : (k.start cap).cur = [] := by
  rcases start_cases cap k with ⟨-, h⟩ | ⟨c, i, -, h⟩ <;> simp [h]

@[simp] theorem start_posRow (cap : Nat) (k : Block) : (k.start cap).posRow = 0#32 := by
  rcases start_cases cap k with ⟨-, h⟩ | ⟨c, i, -, h⟩ <;> simp [h]

/-- START ends in FILTER or in ERROR. -/
theorem start_state_ne_done (cap : Nat) (k : Block) : (k.start cap).state ≠ .done := by
  rcases start_cases cap k with ⟨-, h⟩ | ⟨c, i, -, h⟩ <;> simp [h]

/-! ## Register writes that are no command -/

@[simp] theorem writeConfig_state (k : Block) (r : Reg) (v : Word) : (k.writeConfig r v).state = k.state := by
  cases r <;> rfl

/-- Where WIDTH, HEIGHT and BPP stand in the map (R38). -/
theorem regAt_imageSize {off : Nat} (h : regAt off = .width ∨ regAt off = .height ∨ regAt off = .bpp) :
    off = 0x08 ∨ off = 0x0C ∨ off = 0x10 := by
  unfold regAt at h
  split at h <;> simp_all

/-! ## The data step -/

/-- After a row commit the block is in DONE if that was the last row, and in FILTER otherwise (R98). -/
theorem nextRow_done_iff (k : Block) (p : RowBuf) : (k.nextRow p).state = .done ↔ k.posRow + 1#32 = k.height := by
  simp [nextRow_state]

theorem nextRow_filter_iff (k : Block) (p : RowBuf) : (k.nextRow p).state = .filter ↔ k.posRow + 1#32 ≠ k.height := by
  simp [nextRow_state]

theorem nextRow_state_ne (k : Block) (p : RowBuf) : (k.nextRow p).state ≠ .data ∧ (k.nextRow p).state ≠ .error := by
  rw [nextRow_state]
  split <;> decide

/-- Everything a data step can do to the block: CUR[i] holds the byte delivered, the byte is counted, and the position goes to the
next byte of the row, or the row is committed (R96, R97). -/
theorem blockDataStep_cases {cap : Nat} {pred : Neighbours → Byte} {k l : Block} {x y : Byte}
    (h : k.dataStep cap pred x = .ok (l, y)) :
    k.posByte.toNat < cap ∧
      ((k.posByte.toNat + 1 < k.rowBytes ∧ l = (k.setCur (setCell k.cur k.posByte.toNat y)).countOutput.nextByte) ∨
        (k.rowBytes ≤ k.posByte.toNat + 1 ∧ ∃ p,
          copyCells cap (setCell k.cur k.posByte.toNat y) k.rowBytes k.prev = .ok p ∧
          l = (k.setCur (setCell k.cur k.posByte.toNat y)).countOutput.nextRow p)) := by
  obtain ⟨n, -, -, hcap, hadv⟩ := blockDataStep_ok.1 h
  exact ⟨hcap, advance_ok.1 hadv⟩

/-- A data step keeps the canonical form of the row buffers. -/
theorem blockDataStep_wf {cap : Nat} {pred : Neighbours → Byte} {k l : Block} {x y : Byte}
    (h : k.dataStep cap pred x = .ok (l, y)) (hp : RowBuf.wf k.prev) (hc : RowBuf.wf k.cur) :
    RowBuf.wf l.prev ∧ RowBuf.wf l.cur := by
  obtain ⟨-, ⟨-, rfl⟩ | ⟨-, p, hcopy, rfl⟩⟩ := blockDataStep_cases h
  · exact ⟨hp, setCell_wf hc _ _⟩
  · exact ⟨copyCells_wf hp hcopy, nil_wf⟩

/-- A data step writes no configuration register. -/
theorem blockDataStep_sameConfig {cap : Nat} {pred : Neighbours → Byte} {k l : Block} {x y : Byte}
    (h : k.dataStep cap pred x = .ok (l, y)) : k.SameConfig l := by
  obtain ⟨-, ⟨-, rfl⟩ | ⟨-, p, -, rfl⟩⟩ := blockDataStep_cases h
  all_goals exact ⟨rfl, rfl, rfl, rfl⟩

/-- A data step counts the byte it delivers. -/
theorem blockDataStep_outCount {cap : Nat} {pred : Neighbours → Byte} {k l : Block} {x y : Byte}
    (h : k.dataStep cap pred x = .ok (l, y)) : l.outCount = k.outCount + 1#64 := by
  obtain ⟨-, ⟨-, rfl⟩ | ⟨-, p, -, rfl⟩⟩ := blockDataStep_cases h
  all_goals rfl

end Sys2Proof.Machine
end

section
/-!
SUPPORT. The invariant of the block (10_state R42), operation by operation.
-/

namespace Sys2Proof.Machine

/-! ## What the invariant says of a running session -/

section running
variable {cap : Nat} {k : Block}

theorem Block.Inv.prev_fits (h : k.Inv cap) : RowBuf.Fits cap k.prev := ⟨h.prev_wf, h.prev_inside⟩

theorem Block.Inv.cur_fits (h : k.Inv cap) : RowBuf.Fits cap k.cur := ⟨h.cur_wf, h.cur_inside⟩

theorem busy_of_filter (hs : k.state = .filter) : k.busy = true := (busy_iff k).2 (.inl hs)

theorem busy_of_data (hs : k.state = .data) : k.busy = true := (busy_iff k).2 (.inr hs)

theorem state_ne_of_not_busy (hb : k.busy = false) : k.state ≠ .filter ∧ k.state ≠ .data := by
  constructor <;> intro hs <;> simp [Block.busy, hs] at hb

/-- The row counter of a running session does not wrap (R25). -/
theorem posRow_succ_toNat (h : k.Inv cap) (hs : k.state = .data) : (k.posRow + 1#32).toNat = k.posRow.toNat + 1 := by
  have hrow := (h.at_data hs).1
  have hlt := k.height.isLt
  rw [BitVec.toNat_add, BitVec.toNat_ofNat]
  omega

/-- The output counter of a running session does not wrap (R27). -/
theorem outCount_succ_toNat (h : k.Inv cap) (hs : k.state = .data) :
    (k.outCount + 1#64).toNat = k.outCount.toNat + 1 := by
  obtain ⟨hrow, hbyte, hout⟩ := h.at_data hs
  have hle : k.outCount.toNat + 1 ≤ k.outTotal :=
    calc k.outCount.toNat + 1 = k.posRow.toNat * k.rowBytes + (k.posByte.toNat + 1) := by rw [hout]; rfl
      _ ≤ k.posRow.toNat * k.rowBytes + k.rowBytes := Nat.add_le_add_left hbyte _
      _ = (k.posRow.toNat + 1) * k.rowBytes := (Nat.succ_mul ..).symm
      _ ≤ k.outTotal := Nat.mul_le_mul_right _ hrow
  have hlt := outTotal_lt (h.config (busy_of_data hs))
  rw [BitVec.toNat_add, BitVec.toNat_ofNat]
  omega

/-- The byte index does not wrap within a row (R25). -/
theorem posByte_succ_toNat (h : k.Inv cap) (hcap : cap ≤ 2 ^ 32 - 1) (hs : k.state = .data)
    (hi : k.posByte.toNat + 1 < k.rowBytes) : (k.posByte + 1#32).toNat = k.posByte.toNat + 1 := by
  have hfit := (h.config (busy_of_data hs)).row_fits
  rw [BitVec.toNat_add, BitVec.toNat_ofNat]
  omega

/-- With the last byte of a row, whole rows have been output (R97). -/
theorem committed_outCount_toNat (h : k.Inv cap) (hs : k.state = .data) (hi : k.rowBytes ≤ k.posByte.toNat + 1) :
    (k.outCount + 1#64).toNat = (k.posRow + 1#32).toNat * k.rowBytes := by
  obtain ⟨-, hbyte, hout⟩ := h.at_data hs
  rw [outCount_succ_toNat h hs, hout, posRow_succ_toNat h hs, Nat.succ_mul]
  omega

end running

/-! ## Operations that keep it -/

section operations
variable {cap : Nat} {k : Block}

/-- Outside a session the invariant speaks of the row buffers, the error fields, DONE and FT_CUR only. -/
theorem inv_of_not_busy (hb : k.busy = false) (hprev : RowBuf.Fits cap k.prev) (hcur : RowBuf.Fits cap k.cur)
    (herr : k.ErrorFieldsLegal) (hdone : k.state = .done → k.EndedSession cap) (hft : k.ftCur.toNat ≤ 4) : k.Inv cap := by
  obtain ⟨hf, hd⟩ := state_ne_of_not_busy hb
  have hnb : ¬ k.busy = true := by simp [hb]
  exact {
    prev_wf := hprev.1, cur_wf := hcur.1, prev_inside := hprev.2, cur_inside := hcur.2
    errors := herr
    at_filter := fun hs => absurd hs hf
    at_data := fun hs => absurd hs hd
    at_done := hdone
    config := fun hb => absurd hb hnb
    latched := hft
    cur_filled := fun hs => absurd hs hd
    prev_filled := fun hb => absurd hb hnb }

theorem reset_inv (cap : Nat) : Block.reset.Inv cap :=
  inv_of_not_busy rfl (nil_fits cap) (nil_fits cap) (errorFieldsLegal_of_noError nofun rfl rfl rfl) nofun
    (Nat.zero_le 4)

theorem setIrqEn_inv (h : k.Inv cap) (v : Bool) : (k.setIrqEn v).Inv cap :=
  { h with config := fun hb => configLegal_congr (h.config hb) ⟨rfl, rfl, rfl, rfl⟩ }

/-- A configuration write outside a session (R116): the DONE clause is about the configuration of the session that ended. -/
theorem writeConfig_inv (h : k.Inv cap) (hb : k.busy = false) (r : Reg) (v : Word) : (k.writeConfig r v).Inv cap := by
  obtain ⟨w, ht, p, n, heq⟩ := writeConfig_cases k r v
  rw [heq]
  exact inv_of_not_busy hb h.prev_fits h.cur_fits h.errors h.at_done h.latched

theorem writeReg_inv (h : k.Inv cap) (r : Reg) (v : Word) : (k.writeReg r v).Inv cap := by
  rcases writeReg_cases k r v with ⟨-, heq⟩ | ⟨-, -, heq⟩ | ⟨-, hb, heq⟩ <;> rw [heq]
  · exact setIrqEn_inv h _
  · exact h
  · exact writeConfig_inv h hb r v

/-- START needs nothing of the session before it but that PREV lies inside its buffer (R41, R109). -/
theorem start_inv (hprev : RowBuf.Fits cap k.prev) : (k.start cap).Inv cap := by
  rcases start_cases cap k with ⟨hlegal, heq⟩ | ⟨c, i, hcheck, heq⟩ <;> rw [heq]
  · exact {
      prev_wf := hprev.1, cur_wf := nil_wf, prev_inside := hprev.2, cur_inside := (nil_fits cap).2
      errors := errorFieldsLegal_of_noError nofun rfl rfl rfl
      at_filter := fun _ => ⟨hlegal.height_pos, rfl, (Nat.zero_mul _).symm⟩
      at_data := nofun
      at_done := nofun
      config := fun _ => configLegal_congr hlegal ⟨rfl, rfl, rfl, rfl⟩
      latched := Nat.zero_le 4
      cur_filled := nofun
      prev_filled := fun _ hrow => absurd rfl hrow }
  · refine inv_of_not_busy rfl hprev (nil_fits cap) ?_ nofun (Nat.zero_le 4)
    rcases startCheck_some hcheck with ⟨rfl, hlo, hhi⟩ | ⟨rfl, rfl⟩
    · exact ⟨rfl, hlo, hhi, rfl⟩
    · exact ⟨rfl, rfl, rfl⟩

theorem clear_inv (h : k.Inv cap) : k.clear.Inv cap :=
  inv_of_not_busy rfl h.prev_fits h.cur_fits (errorFieldsLegal_of_noError nofun rfl rfl rfl) nofun h.latched

/-- The filter step with a legal code (R94): the position is (r, 0), where no cell of CUR is called for. -/
theorem latchFilter_inv (h : k.Inv cap) (hs : k.state = .filter) {c : BitVec 3} (hc : c.toNat ≤ 4) :
    (k.latchFilter c).Inv cap := by
  have hbusy := busy_of_filter hs
  obtain ⟨hrow, hbyte, hout⟩ := h.at_filter hs
  obtain ⟨hcode, hinfo, herow⟩ := noError_of_state_ne h.errors (by simp [hs])
  have hlegal := h.config hbusy
  exact {
    prev_wf := h.prev_wf, cur_wf := h.cur_wf, prev_inside := h.prev_inside, cur_inside := h.cur_inside
    errors := errorFieldsLegal_of_noError nofun hcode hinfo herow
    at_filter := nofun
    at_data := fun _ => by simpa [hbyte, hout, hrow] using rowBytes_pos hlegal
    at_done := nofun
    config := fun _ => configLegal_congr hlegal ⟨rfl, rfl, rfl, rfl⟩
    latched := hc
    cur_filled := fun _ j hj => by simp [hbyte] at hj
    prev_filled := fun _ => h.prev_filled hbusy }

/-- The filter step with an illegal code (R95). -/
theorem rejectFilter_inv (h : k.Inv cap) {v : Byte} (hv : 4 < v.toNat) : (k.rejectFilter v).Inv cap := by
  have hlt := v.isLt
  have hinfo : (v.zeroExtend 32).toNat = v.toNat := by
    rw [BitVec.zeroExtend, BitVec.toNat_setWidth]
    omega
  have hlegal : 5 ≤ (v.zeroExtend 32).toNat ∧ (v.zeroExtend 32).toNat ≤ 255 := by omega
  exact inv_of_not_busy rfl h.prev_fits h.cur_fits ⟨rfl, hlegal.1, hlegal.2, rfl⟩ nofun h.latched

/-- The data step within a row (R96): CUR[i] is filled, and i and OUT_COUNT advance together. -/
theorem nextByte_inv (h : k.Inv cap) (hcap : cap ≤ 2 ^ 32 - 1) (hs : k.state = .data) (hin : k.posByte.toNat < cap)
    (hi : k.posByte.toNat + 1 < k.rowBytes) (y : Byte) :
    ((k.setCur (setCell k.cur k.posByte.toNat y)).countOutput.nextByte).Inv cap := by
  have hbusy := busy_of_data hs
  have hcur := setCell_fits h.cur_fits hin y
  have hbyte := posByte_succ_toNat h hcap hs hi
  obtain ⟨hrow, -, hout⟩ := h.at_data hs
  exact {
    prev_wf := h.prev_wf, cur_wf := hcur.1, prev_inside := h.prev_inside, cur_inside := hcur.2
    errors := h.errors
    at_filter := by simp [hs]
    at_data := fun _ =>
      ⟨hrow, by simpa [hbyte] using hi, by simp [hbyte, outCount_succ_toNat h hs, hout, Nat.add_assoc]⟩
    at_done := by simp [hs]
    config := fun _ => configLegal_congr (h.config hbusy) ⟨rfl, rfl, rfl, rfl⟩
    latched := h.latched
    cur_filled := fun _ j hj => by
      rw [nextByte_posByte, countOutput_posByte, setCur_posByte, hbyte] at hj
      rw [nextByte_cur, countOutput_cur, setCur_cur, cellAt_setCell]
      split
      · rfl
      · exact h.cur_filled hs j (by omega)
    prev_filled := fun _ => h.prev_filled hbusy }

/-- The data step that commits a row (R97, R98): PREV is the row just finished, and whole rows have been output. -/
theorem nextRow_inv (h : k.Inv cap) (hs : k.state = .data) (hi : k.rowBytes ≤ k.posByte.toNat + 1) {y : Byte} {p : RowBuf}
    (hcopy : copyCells cap (setCell k.cur k.posByte.toNat y) k.rowBytes k.prev = .ok p) :
    ((k.setCur (setCell k.cur k.posByte.toNat y)).countOutput.nextRow p).Inv cap := by
  obtain ⟨hcode, hinfo, herow⟩ := noError_of_state_ne h.errors (by simp [hs])
  obtain ⟨hnotData, hnotError⟩ := nextRow_state_ne (k.setCur (setCell k.cur k.posByte.toNat y)).countOutput p
  obtain ⟨hfilled, hcells⟩ := copyCells_ok hcopy
  have hlegal := h.config (busy_of_data hs)
  have hp := copyCells_fits h.prev_fits hcopy
  have hrows := committed_outCount_toNat h hs hi
  exact {
    prev_wf := hp.1, cur_wf := nil_wf, prev_inside := hp.2, cur_inside := (nil_fits cap).2
    errors := errorFieldsLegal_of_noError hnotError hcode hinfo herow
    at_filter := fun hf => by
      have hne : k.posRow + 1#32 ≠ k.height := (nextRow_filter_iff _ p).1 hf
      have hlt : (k.posRow + 1#32).toNat < k.height.toNat := by
        have hrow := (h.at_data hs).1
        have hposRow := posRow_succ_toNat h hs
        have hne' := mt BitVec.eq_of_toNat_eq hne
        omega
      exact ⟨hlt, rfl, hrows⟩
    at_data := fun hd => absurd hd hnotData
    at_done := fun hd => by
      have he : k.posRow + 1#32 = k.height := (nextRow_done_iff _ p).1 hd
      exact ⟨k, hlegal, he, rfl, hrows.trans (by rw [he, Block.outTotal])⟩
    config := fun _ => configLegal_congr hlegal ⟨rfl, rfl, rfl, rfl⟩
    latched := h.latched
    cur_filled := fun hd => absurd hd hnotData
    prev_filled := fun _ _ j hj => by
      have hj' : j < k.rowBytes := hj
      rw [nextRow_prev, hcells, if_pos hj']
      exact (hfilled j hj').1 }

theorem blockDataStep_inv {pred : Neighbours → Byte} {l : Block} {x y : Byte} (h : k.Inv cap) (hcap : cap ≤ 2 ^ 32 - 1)
    (hs : k.state = .data) (hd : k.dataStep cap pred x = .ok (l, y)) : l.Inv cap := by
  obtain ⟨hin, ⟨hi, rfl⟩ | ⟨hi, p, hcopy, rfl⟩⟩ := blockDataStep_cases hd
  · exact nextByte_inv h hcap hs hin hi y
  · exact nextRow_inv h hs hi hcopy

end operations

/-! ## Moves that keep it -/

/-- A state meets the invariant as soon as its block does, MAX_ROW_BYTES being that of one that meets it. -/
theorem inv_of_blk {s t : State} (h : s.Inv) (hcap : t.maxRowBytes = s.maxRowBytes) (hb : t.blk.Inv s.maxRowBytes) : t.Inv :=
  ⟨hcap ▸ h.cap_pos, hcap ▸ h.cap_word, hcap ▸ hb⟩

theorem takes_inv {s u : State} {e : HostEvent} (h : Takes s e u) (hs : s.Inv) : u.Inv := by
  obtain ⟨hcap, hblk, -⟩ := takes_same h
  exact inv_of_blk hs hcap (hblk ▸ hs.blk)

theorem moves_inv {s t : State} {e : HostEvent} (hm : Moves s e t) (h : s.Inv) : t.Inv := by
  refine inv_of_blk h (moves_maxRowBytes hm) ?_
  cases hm with
  | hold | lines | read => exact h.blk
  | latch v rest hs _ _ hv => exact latchFilter_inv h.blk hs (by simp [BitVec.extractLsb'_toNat]; omega)
  | reject v rest _ _ _ hv => exact rejectFilter_inv h.blk hv
  | data x rest k y hs _ _ _ hk => exact blockDataStep_inv h.blk h.cap_word hs hk
  | write off v => exact writeReg_inv h.blk _ v
  | ignored v => exact setIrqEn_inv h.blk _
  | start v => exact start_inv h.blk.prev_fits
  | clear v => exact clear_inv (setIrqEn_inv h.blk _)
  | reset => exact reset_inv _

/-- Settles O39: each move of the machine keeps the invariant, and taking the host's action from its plan does not touch the
block. -/
theorem everyStepKeepsTheInvariant : Obligations.EveryStepKeepsTheInvariant := by
  intro s t hs hstep
  obtain ⟨e, u, htake, hmove⟩ := step_moves hstep
  exact moves_inv hmove (takes_inv htake hs)

end Sys2Proof.Machine
end

section
/-!
SUPPORT. The clauses of R42 as the spec lists them (10_state R42; log entry 9), and the form of the row buffers (R31, R32).
-/

namespace Sys2Proof.Machine

/-! ## R42 as listed -/

/-- The image of the current configuration has been output whole: what R42's DONE clause says beside i and ERR_CODE. -/
def Block.WholeImage (k : Block) : Prop := k.posRow = k.height ∧ k.outCount.toNat = k.outTotal

/-- The invariant falls short of R42 as listed only in DONE, where it does not tie r and OUT_COUNT to the current registers. -/
theorem listed_of_inv {cap : Nat} {k : Block} (h : k.Inv cap) (hdone : k.state = .done → k.WholeImage) : k.Listed cap where
  at_filter := h.at_filter
  at_data := h.at_data
  at_done hs := by
    obtain ⟨hrow, hout⟩ := hdone hs
    obtain ⟨-, -, -, hbyte, -⟩ := h.at_done hs
    exact ⟨hrow, hbyte, hout, (noError_of_state_ne h.errors (by simp [hs])).1⟩
  at_error := errCode_ne_of_error h.errors
  at_idle hs := (noError_of_state_ne h.errors (by simp [hs])).1
  config hb :=
    have hlegal := h.config hb
    ⟨⟨rowBytes_pos hlegal, hlegal.row_fits⟩, hlegal.height_pos, hlegal.enough_input⟩

theorem Block.Listed.wholeImage {cap : Nat} {k : Block} (h : k.Listed cap) (hs : k.state = .done) : k.WholeImage :=
  have ⟨hrow, _, hout, _⟩ := h.at_done hs
  ⟨hrow, hout⟩

/-- A data step enters DONE with the last row of the image (R98). -/
theorem blockDataStep_wholeImage {cap : Nat} {pred : Neighbours → Byte} {k l : Block} {x y : Byte} (h : k.Inv cap)
    (hs : k.state = .data) (hd : k.dataStep cap pred x = .ok (l, y)) (hl : l.state = .done) : l.WholeImage := by
  obtain ⟨-, ⟨-, rfl⟩ | ⟨hi, p, -, rfl⟩⟩ := blockDataStep_cases hd
  · simp [hs] at hl
  · have he : k.posRow + 1#32 = k.height := (nextRow_done_iff _ p).1 hl
    exact ⟨he, (committed_outCount_toNat h hs hi).trans (by rw [he]; rfl)⟩

/-- A configuration write to another register than WIDTH, HEIGHT and BPP leaves the image what it was. -/
theorem writeConfig_wholeImage {k : Block} {r : Reg} (hr : ¬ (r = .width ∨ r = .height ∨ r = .bpp)) (v : Word)
    (h : k.WholeImage) : (k.writeConfig r v).WholeImage := by
  cases r
  case width | height | bpp => simp at hr
  all_goals exact h

/-- DONE is entered by the data step that ends an image. A move that stays in DONE keeps the image what it was, unless it is a write of
WIDTH, HEIGHT or BPP (R98, R116). -/
theorem moves_done {s t : State} {e : HostEvent} (h : s.Inv) (hm : Moves s e t) (hd : t.blk.state = .done) :
    t.blk.WholeImage ∨
      (s.blk.state = .done ∧
        ((s.blk.WholeImage → t.blk.WholeImage) ∨
          ∃ off, ∃ v : Word, e = .write 32 off v ∧ (off = 0x08 ∨ off = 0x0C ∨ off = 0x10))) := by
  cases hm with
  | hold | lines | read => exact .inr ⟨hd, .inl id⟩
  | latch v rest => simp at hd
  | reject v rest => simp [Block.rejectFilter] at hd
  | data x rest k y hs _ _ _ hk => exact .inl (blockDataStep_wholeImage h.blk hs hk hd)
  | write off v =>
    rw [setBlk_blk] at hd ⊢
    rcases writeReg_cases s.blk (regAt off) v with ⟨-, heq⟩ | ⟨-, -, heq⟩ | ⟨-, -, heq⟩ <;> rw [heq] at hd ⊢
    · exact .inr ⟨hd, .inl id⟩
    · exact .inr ⟨hd, .inl id⟩
    · refine .inr ⟨by simpa using hd, ?_⟩
      by_cases hr : regAt off = .width ∨ regAt off = .height ∨ regAt off = .bpp
      · exact .inr ⟨off, v, rfl, regAt_imageSize hr⟩
      · exact .inl (writeConfig_wholeImage hr v)
  | ignored v => exact .inr ⟨hd, .inl id⟩
  | start v => exact absurd hd (start_state_ne_done _ _)
  | clear v => simp [Block.clear] at hd
  | reset => simp at hd

/-- An action of the host other than doing nothing is the head of its plan. -/
theorem takes_sched {s u : State} {e : HostEvent} (h : Takes s e u) (he : e ≠ .run) : ∃ es, s.host.sched = e :: es := by
  rcases h with ⟨-, hrun, -⟩ | ⟨es, hs, -⟩
  · exact absurd hrun he
  · exact ⟨es, hs⟩

/-- Settles O40: the next state meets the invariant (O39), which is R42 as listed but for the image of DONE, and `moves_done` says how
DONE is reached. -/
theorem listedInvariantsHoldUntilReconfigured : Obligations.ListedInvariantsHoldUntilReconfigured := by
  intro s t hs hstep
  obtain ⟨e, u, htake, hmove⟩ := step_moves hstep
  obtain ⟨-, hblk, -⟩ := takes_same htake
  have ht : t.blk.Inv t.maxRowBytes := (everyStepKeepsTheInvariant s t hs hstep).blk
  by_cases hdone : t.blk.state = .done
  · rcases moves_done (takes_inv htake hs) hmove hdone with himage | ⟨hsdone, hkeep⟩
    · exact .inl (listed_of_inv ht fun _ => himage)
    · rw [hblk] at hsdone hkeep
      by_cases hlisted : s.blk.Listed s.maxRowBytes
      · rcases hkeep with hkeep | ⟨off, v, rfl, hoff⟩
        · exact .inl (listed_of_inv ht fun _ => hkeep (hlisted.wholeImage hsdone))
        · obtain ⟨es, hsched⟩ := takes_sched htake nofun
          exact .inr ⟨hsdone, hdone, .inr ⟨es, off, v, hsched, hoff⟩⟩
      · exact .inr ⟨hsdone, hdone, .inl hlisted⟩
  · exact .inl (listed_of_inv ht fun hd => absurd hd hdone)

/-- Settles O38: reset is no session, so R42 asks only for error fields that are 0, which they are. -/
theorem invariantHoldsAtReset : Obligations.InvariantHoldsAtReset :=
  have h : State.reset.blk.Inv State.reset.maxRowBytes := reset_inv _
  ⟨⟨by decide, by decide, h⟩, listed_of_inv h nofun⟩

/-! ## The form of the row buffers -/

theorem writeReg_rowBuffers (k : Block) (r : Reg) (v : Word) :
    (k.writeReg r v).prev = k.prev ∧ (k.writeReg r v).cur = k.cur := by
  rcases writeReg_cases k r v with ⟨-, heq⟩ | ⟨-, -, heq⟩ | ⟨-, -, heq⟩
  · simp [heq]
  · simp [heq]
  · obtain ⟨w, h, p, n, hcfg⟩ := writeConfig_cases k r v
    simp [heq, hcfg]

theorem moves_wf {s t : State} {e : HostEvent} (hm : Moves s e t) (hp : RowBuf.wf s.blk.prev) (hc : RowBuf.wf s.blk.cur) :
    RowBuf.wf t.blk.prev ∧ RowBuf.wf t.blk.cur := by
  cases hm with
  | hold | lines | read | latch | reject | ignored | clear => exact ⟨hp, hc⟩
  | data x rest k y _ _ _ _ hk => exact blockDataStep_wf hk hp hc
  | write off v =>
    obtain ⟨hprev, hcur⟩ := writeReg_rowBuffers s.blk (regAt off) v
    rw [setBlk_blk, hprev, hcur]
    exact ⟨hp, hc⟩
  | start v =>
    rw [setBlk_blk, start_prev, start_cur]
    exact ⟨hp, nil_wf⟩
  | reset => exact ⟨nil_wf, nil_wf⟩

/-- Settles O42: cells are written by `setCell` and by the copy of the row commit only, and both keep the form. -/
theorem everyStepKeepsTheRowBufferForm : Obligations.EveryStepKeepsTheRowBufferForm := by
  intro s t hp hc hstep
  obtain ⟨e, u, htake, hmove⟩ := step_moves hstep
  obtain ⟨-, hblk, -⟩ := takes_same htake
  exact moves_wf hmove (hblk ▸ hp) (hblk ▸ hc)

end Sys2Proof.Machine
end

section
/-!
SUPPORT. What a step of a running session can do to the configuration and the two byte streams (10_state R27, R36, R44; 20_memory R49,
R50).
-/

namespace Sys2Proof.Machine

/-! ## The moves of a running session -/

/-- What a step that is no reset does in a session that runs in `s`: it touches at most IRQ_EN and the streams stand still, or it is a
filter step or a data step. -/
inductive SessionMove (s t : State) : Prop
  | keep (q : Bool) (hk : t.blk = s.blk.setIrqEn q) (hi : t.host.input = s.host.input) (ho : t.host.output = s.host.output)
  | latch (v : Byte) (hs : s.blk.state = .filter) (hk : t.blk = s.blk.latchFilter (v.extractLsb' 0 3))
      (hi : s.host.input = v :: t.host.input) (ho : t.host.output = s.host.output)
  | reject (v : Byte) (hs : s.blk.state = .filter) (hk : t.blk = s.blk.rejectFilter v)
      (hi : s.host.input = v :: t.host.input) (ho : t.host.output = s.host.output)
  | data (pred : Neighbours → Byte) (x y : Byte) (hs : s.blk.state = .data)
      (hk : s.blk.dataStep s.maxRowBytes pred x = .ok (t.blk, y))
      (hi : s.host.input = x :: t.host.input) (ho : t.host.output = s.host.output ++ [y])

/-- A register write that is no command sets IRQ_EN in a running session, or it changes nothing (R107, R108). -/
theorem writeReg_of_busy {k : Block} (hb : k.busy = true) (r : Reg) (v : Word) : ∃ q, k.writeReg r v = k.setIrqEn q := by
  rcases writeReg_cases k r v with ⟨-, heq⟩ | ⟨-, -, heq⟩ | ⟨-, hnb, -⟩
  · exact ⟨_, heq⟩
  · exact ⟨k.irqEn, heq⟩
  · simp [hb] at hnb

theorem moves_session {s t : State} {e : HostEvent} (hm : Moves s e t) (hb : s.blk.busy = true) (he : e ≠ .reset) :
    SessionMove s t := by
  cases hm with
  | hold | lines | read => exact .keep s.blk.irqEn rfl rfl rfl
  | latch v rest hs _ hi => exact .latch v hs rfl hi rfl
  | reject v rest hs _ hi => exact .reject v hs rfl hi rfl
  | data x rest k y hs _ hi _ hk => exact .data _ x y hs hk hi rfl
  | write off v =>
    obtain ⟨q, hq⟩ := writeReg_of_busy hb (regAt off) v
    exact .keep q hq rfl rfl
  | ignored v => exact .keep _ rfl rfl rfl
  | start v hnb | clear v hnb => simp [hb] at hnb
  | reset => exact absurd rfl he

/-- A step of a running session that is no reset. -/
theorem step_session {s t : State} (hb : s.blk.busy = true) (hr : ∀ es, s.host.sched ≠ .reset :: es)
    (h : step s = .next t) : SessionMove s t := by
  obtain ⟨e, u, htake, hmove⟩ := step_moves h
  have he : e ≠ .reset := by
    rintro rfl
    obtain ⟨es, hsched⟩ := takes_sched htake nofun
    exact hr es hsched
  rcases htake with ⟨-, -, rfl⟩ | ⟨es, -, rfl⟩
  · exact moves_session hmove hb he
  · cases moves_session hmove hb he with
    | keep q hk hi ho => exact .keep q hk hi ho
    | latch v hs hk hi ho => exact .latch v hs hk hi ho
    | reject v hs hk hi ho => exact .reject v hs hk hi ho
    | data pred x y hs hk hi ho => exact .data pred x y hs hk hi ho

/-- Settles O44: a running session writes IRQ_EN, latches, rejects or reconstructs, and none of these writes a configuration register. -/
theorem configurationIsFixedWhileBusy : Obligations.ConfigurationIsFixedWhileBusy := by
  intro s t hb hr hstep
  show s.blk.SameConfig t.blk
  cases step_session hb hr hstep with
  | keep q hk | latch v _ hk | reject v _ hk => rw [hk]; exact ⟨rfl, rfl, rfl, rfl⟩
  | data pred x y _ hk => exact blockDataStep_sameConfig hk

/-! ## Bytes consumed -/

/-- The count of consumed bytes does not depend on IRQ_EN. -/
theorem consumed_setIrqEn (k : Block) (q : Bool) : (k.setIrqEn q).consumed = k.consumed := rfl

/-- The filter step consumes the first byte of its row (R44, R94). -/
theorem consumed_latchFilter {cap : Nat} {k : Block} (h : k.Inv cap) (hs : k.state = .filter) (c : BitVec 3) :
    (k.latchFilter c).consumed = k.consumed + 1 := by
  simp [Block.consumed, hs, (h.at_filter hs).2.1]

theorem consumed_rejectFilter {k : Block} (hs : k.state = .filter) (v : Byte) :
    (k.rejectFilter v).consumed = k.consumed + 1 := by
  simp [Block.consumed, Block.rejectFilter, hs]

/-- The data step consumes one byte more, and a committed row has been consumed whole (R44, R96, R97). -/
theorem consumed_blockDataStep {cap : Nat} {pred : Neighbours → Byte} {k l : Block} {x y : Byte} (h : k.Inv cap)
    (hcap : cap ≤ 2 ^ 32 - 1) (hs : k.state = .data) (hd : k.dataStep cap pred x = .ok (l, y)) :
    l.consumed = k.consumed + 1 := by
  have hk : k.consumed = k.posRow.toNat * (1 + k.rowBytes) + (1 + k.posByte.toNat) := by simp [Block.consumed, hs]
  obtain ⟨-, ⟨hi, rfl⟩ | ⟨hi, p, -, rfl⟩⟩ := blockDataStep_cases hd
  · simp [Block.consumed, hs, posByte_succ_toNat h hcap hs hi, Nat.add_assoc]
  · have hbyte := (h.at_data hs).2.1
    have hrow : (k.posRow + 1#32).toNat * (1 + k.rowBytes) = k.consumed + 1 := by
      rw [posRow_succ_toNat h hs, Nat.succ_mul, hk]
      omega
    by_cases he : k.posRow + 1#32 = k.height
    · simpa [Block.consumed, Block.needed, he] using hrow
    · simpa [Block.consumed, he] using hrow

/-- Settles O50: a filter step and a data step take the head of the input and count it; nothing else takes or counts a byte. -/
theorem everyConsumedByteIsCounted : Obligations.EveryConsumedByteIsCounted := by
  intro s t hs hb hr hstep
  cases step_session hb hr hstep with
  | keep q hk hi => exact ⟨[], hi.symm, by simp, by rw [hk]; exact consumed_setIrqEn _ q⟩
  | latch v hf hk hi => exact ⟨[v], hi, le_rfl, by rw [hk]; exact consumed_latchFilter hs.blk hf _⟩
  | reject v hf hk hi => exact ⟨[v], hi, le_rfl, by rw [hk]; exact consumed_rejectFilter hf v⟩
  | data pred x y hd hk hi => exact ⟨[x], hi, le_rfl, consumed_blockDataStep hs.blk hs.cap_word hd hk⟩

/-! ## Bytes delivered -/

/-- Only the data step delivers, one byte (R96). -/
theorem moves_output {s t : State} {e : HostEvent} (hm : Moves s e t) :
    ∃ out : List Byte, t.host.output = s.host.output ++ out ∧ out.length ≤ 1 ∧ (s.blk.busy = false → out = []) := by
  cases hm with
  | data x rest k y hs => exact ⟨[y], rfl, le_rfl, fun hb => absurd hs (state_ne_of_not_busy hb).2⟩
  | _ => exact ⟨[], (List.append_nil _).symm, Nat.zero_le _, fun _ => rfl⟩

/-- OUT_COUNT counts what a running session delivers (R27). -/
theorem session_outCount {s t : State} (h : s.Inv) (hm : SessionMove s t) {out : List Byte}
    (ho : t.host.output = s.host.output ++ out) : t.blk.outCount.toNat = s.blk.outCount.toNat + out.length := by
  cases hm with
  | keep q hk _ ho' | latch v _ hk _ ho' | reject v _ hk _ ho' =>
    obtain rfl : out = [] := by simpa [ho'] using ho
    rw [hk]
    rfl
  | data pred x y hs hk _ ho' =>
    obtain rfl : [y] = out := by simpa [ho'] using ho
    rw [blockDataStep_outCount hk]
    exact outCount_succ_toNat h.blk hs

/-- Settles O51: what a step appends is said by `moves_output`, and that OUT_COUNT counts it by `session_outCount`. -/
theorem everyDeliveredByteIsCounted : Obligations.EveryDeliveredByteIsCounted := by
  intro s t hstep
  obtain ⟨e, u, htake, hmove⟩ := step_moves hstep
  obtain ⟨-, hblk, -, -, -, houtput, -⟩ := takes_same htake
  obtain ⟨out, ho, hlen, hidle⟩ := moves_output hmove
  rw [houtput] at ho
  rw [hblk] at hidle
  exact ⟨out, ho, hlen, hidle, fun hs hb hr => session_outCount hs (step_session hb hr hstep) ho⟩

end Sys2Proof.Machine
end

section
/-!
SUPPORT. Offsets that no write changes (10_state R40, 43_host_commands R115), the values after reset (10_state R37), and what START
forgets (10_state R41, 70_reset_and_hazards R152).
-/

namespace Sys2Proof.Machine

/-! ## Read-only and unmapped offsets -/

/-- The registers a write can change: CTRL and the configuration (R40). -/
def Reg.Writable (r : Reg) : Prop :=
  r = .ctrl ∨ r = .width ∨ r = .height ∨ r = .bpp ∨ r = .inlenLo ∨ r = .inlenHi

theorem writeReg_of_not_writable {r : Reg} (hr : ¬ r.Writable) (k : Block) (v : Word) : k.writeReg r v = k := by
  cases r
  case ctrl | width | height | bpp | inlenLo | inlenHi => simp [Reg.Writable] at hr
  all_goals exact ite_self k

/-- The offsets R40 and R115 name are aligned and inside the block, and hold no writable register. -/
theorem regAt_not_writable {off : Nat} (h : off ∈ [0x04, 0x1C, 0x20, 0x24, 0x28, 0x2C, 0x30, 0x34, 0x38, 0x3C]) :
    off % 4 = 0 ∧ off < 0x40 ∧ ¬ (regAt off).Writable := by
  unfold Reg.Writable
  decide +revert

/-- Settles O7: the write is a move that leaves the block as it is, and the read one that returns the 0 of an unmapped register. -/
theorem readOnlyAndUnmappedWritesChangeNothing : Obligations.ReadOnlyAndUnmappedWritesChangeNothing := by
  intro s es off hoff
  obtain ⟨h4, hlt, hr⟩ := regAt_not_writable hoff
  refine ⟨fun v hsched => ?_, fun hunmapped hsched => ?_⟩
  · have hctrl : regAt off ≠ .ctrl := fun hc => hr (.inl hc)
    have hmove := Moves.write (s := s.setSched es) off v h4 hlt (fun hc => absurd hc hctrl)
    rw [writeReg_of_not_writable hr] at hmove
    exact step_of_moves (.inr ⟨es, hsched, rfl⟩) hmove
  · have hmove := Moves.read (s := s.setSched es) off h4 hlt
    have hreg : regAt off = .unmapped := by rcases hunmapped with rfl | rfl <;> rfl
    rw [hreg] at hmove
    exact step_of_moves (.inr ⟨es, hsched, rfl⟩) hmove

/-! ## START -/

theorem exec_start_of_not_busy {s : State} (hb : s.blk.busy = false) (irqEn : Bool) (ignored : Word) :
    exec (.start irqEn ignored) s = .next (s.setBlk ((s.blk.setIrqEn irqEn).start s.maxRowBytes)) := by
  simp [exec, execStart, hb]

/-- Of the block before it, START keeps the configuration, IRQ_EN and PREV only. -/
theorem start_forgets {k l : Block} (hcfg : k.SameConfig l) (hq : l.irqEn = k.irqEn) (cap : Nat) :
    { l.start cap with prev := [] } = { k.start cap with prev := [] } := by
  have hcheck := startCheck_congr hcfg cap
  obtain ⟨hw, hh, hb, hn⟩ := hcfg
  unfold Block.start
  rw [hcheck]
  split <;> simp [Block.clearErr, Block.clearSession, Block.raiseErr, Block.setState, hw, hh, hb, hn, hq]

/-- Settles O56: START leaves nothing of an earlier session but PREV, and opens row 0, which does not read PREV. -/
theorem startForgetsEarlierSessions : Obligations.StartForgetsEarlierSessions := by
  intro s t irqEn ignored hs ht hhost hcap hw hh hb hn
  refine ⟨_, _, exec_start_of_not_busy hs irqEn ignored, exec_start_of_not_busy ht irqEn ignored, hcap, hhost, ?_,
    fun _ hrow => absurd (start_posRow _ _) hrow⟩
  rw [setBlk_blk, setBlk_blk, ← hcap]
  exact start_forgets (k := t.blk.setIrqEn irqEn) (l := s.blk.setIrqEn irqEn) ⟨hw, hh, hb, hn⟩ rfl s.maxRowBytes

/-! ## The values after reset -/

/-- START on a block whose WIDTH is 0 ends in ConfigError with reason 1, whatever the rest of it holds (R109, R120). -/
theorem start_of_width_zero {k : Block} (hw : k.width = 0#32) (cap : Nat) :
    k.start cap = k.clearErr.clearSession.raiseErr .configError 1#32 := by
  have hcheck : startCheck cap k = some (.configError, 1#32) := if_pos hw
  simp [Block.start, hcheck]

/-- Settles O1: the registers by the definition of reset, and the START by its first check. -/
theorem resetLeavesTheStatedValues : Obligations.ResetLeavesTheStatedValues := by
  refine ⟨rfl, rfl, rfl, rfl, rfl, rfl, rfl, rfl, rfl, rfl, rfl, rfl, rfl, fun j => ⟨cellAt_nil j, cellAt_nil j⟩, rfl,
    fun irqEn ignored => ⟨_, exec_start_of_not_busy rfl irqEn ignored, ?_⟩⟩
  rw [setBlk_blk, start_of_width_zero rfl]
  exact ⟨rfl, rfl, rfl⟩

end Sys2Proof.Machine
end

section
/-!
SUPPORT. The block against the reference reconstruction (20_memory R51, R52; 42_sequencer R93 to R99): one data step, one row, one
image, each a run of a free-running host.
-/

namespace Sys2Proof.Machine

/-! ## Runs of a free-running host -/

/-- `n` steps lead from `s` to `t`: `rest` is what the host still has, `out` what was delivered on the way; the configuration is kept,
and so is all that the next run needs. -/
structure State.RunsTo (s : State) (n : Nat) (t : State) (rest out : List Byte) : Prop where
  steps : runSteps n s = .next t
  inv : t.Inv
  free : t.FreeRunning
  config : s.blk.SameConfig t.blk
  input : t.host.input = rest
  output : t.host.output = s.host.output ++ out

/-- A run in two parts. -/
theorem runSteps_add {m n : Nat} {s t : State} (h : runSteps m s = .next t) : runSteps (m + n) s = runSteps n t := by
  induction m generalizing s with
  | zero =>
    cases h
    rw [Nat.zero_add]
  | succ m ih =>
    rw [runSteps] at h
    cases hstep : step s with
    | next u =>
      rw [hstep] at h
      rw [Nat.succ_add, runSteps_succ hstep, ih h]
    | fault f => simp [hstep] at h
    | refused r => simp [hstep] at h

theorem sameConfig_trans {k l m : Block} (h : k.SameConfig l) (h' : l.SameConfig m) : k.SameConfig m := by
  obtain ⟨hw, hh, hb, hn⟩ := h
  obtain ⟨hw', hh', hb', hn'⟩ := h'
  exact ⟨hw'.trans hw, hh'.trans hh, hb'.trans hb, hn'.trans hn⟩

theorem sameConfig_bpp {k l : Block} (h : k.SameConfig l) : l.bpp = k.bpp :=
  have ⟨_, _, hb, _⟩ := h
  hb

theorem sameConfig_rowBytes {k l : Block} (h : k.SameConfig l) : l.rowBytes = k.rowBytes :=
  have ⟨hw, _, hb, _⟩ := h
  rowBytes_congr hw hb

theorem State.RunsTo.trans {s t u : State} {m n : Nat} {rest rest' out out' : List Byte} (h : s.RunsTo m t rest out)
    (h' : t.RunsTo n u rest' out') : s.RunsTo (m + n) u rest' (out ++ out') where
  steps := (runSteps_add h.steps).trans h'.steps
  inv := h'.inv
  free := h'.free
  config := sameConfig_trans h.config h'.config
  input := h'.input
  output := by rw [h'.output, h.output, List.append_assoc]

/-- The run of no step. -/
theorem runsTo_zero {s : State} (hs : s.Inv) (hfree : s.FreeRunning) : s.RunsTo 0 s s.host.input [] :=
  ⟨rfl, hs, hfree, ⟨rfl, rfl, rfl, rfl⟩, rfl, (List.append_nil _).symm⟩

/-- The run of one stream step. -/
theorem runsTo_one {s t : State} {out : List Byte} (hs : s.Inv) (hfree : s.FreeRunning) (hm : Moves s .run t)
    (ht : t.FreeRunning) (hcfg : s.blk.SameConfig t.blk) (hout : t.host.output = s.host.output ++ out) :
    s.RunsTo 1 t t.host.input out :=
  have hstep : step s = .next t := step_of_moves (.inl ⟨hfree.1, rfl, rfl⟩) hm
  ⟨runSteps_succ hstep 0, moves_inv hm hs, ht, hcfg, rfl, hout⟩

/-! ## Row buffers and the mux against lists -/

/-- The first cells of the buffer hold `bytes`. -/
def RowBuf.Holds (b : RowBuf) (bytes : List Byte) : Prop := ∀ j, j < bytes.length → cellAt b j = bytes[j]?

/-- A held byte, by its index. -/
theorem RowBuf.Holds.cellAt_eq {b : RowBuf} {bytes : List Byte} (h : b.Holds bytes) {j : Nat} (hj : j < bytes.length) :
    cellAt b j = some (bytes.getD j 0#8) := by
  rw [h j hj, List.getD_eq_getElem _ _ hj, List.getElem?_eq_getElem hj]

theorem holds_setCell {b : RowBuf} {bytes : List Byte} (h : b.Holds bytes) (y : Byte) :
    RowBuf.Holds (setCell b bytes.length y) (bytes ++ [y]) := by
  intro j hj
  rw [cellAt_setCell]
  by_cases hlast : bytes.length = j
  · simp [← hlast]
  · have hlt : j < bytes.length := by
      rw [List.length_append, List.length_singleton] at hj
      omega
    rw [if_neg hlast, h j hlt, List.getElem?_append_left hlt]

theorem prevHolds_zero {k : Block} {above : List Byte} (hr : k.posRow = 0#32) : k.PrevHolds above ↔ above = [] := by
  rw [Block.PrevHolds, if_pos hr]

theorem prevHolds_succ {k : Block} {above : List Byte} (hr : k.posRow ≠ 0#32) :
    k.PrevHolds above ↔ above.length = k.rowBytes ∧ k.prev.Holds above := by
  rw [Block.PrevHolds, if_neg hr]
  exact and_congr_right fun hlen => by rw [RowBuf.Holds, hlen]

/-- The block is in a row reconstructed with `pred`: the row above is `above`, and the bytes so far are `line`. -/
structure Block.InRow (k : Block) (pred : Neighbours → Byte) (above line : List Byte) : Prop where
  state : k.state = .data
  latched : predictorOf (k.ftCur.zeroExtend 8) = pred
  prev : k.PrevHolds above
  byte : k.posByte.toNat = line.length
  cur : k.cur.Holds line

/-- The mux gives the neighbours of the reference (R75 to R78). -/
theorem muxGives_refNeighbours {cap : Nat} {k : Block} {pred : Neighbours → Byte} {above line : List Byte} (h : k.Inv cap)
    (hk : k.InRow pred above line) :
    k.MuxGives (refNeighbours k.bpp.toNat above line).a (refNeighbours k.bpp.toNat above line).b
      (refNeighbours k.bpp.toNat above line).c := by
  have hbpp : 0 < k.bpp.toNat := by
    rcases (h.config (busy_of_data hk.state)).bpp_legal with hb | hb | hb <;> simp [hb]
  have hlt : line.length < k.rowBytes := hk.byte ▸ (h.at_data hk.state).2.1
  have habove : ∀ j, j < k.rowBytes → k.posRow ≠ 0#32 → cellAt k.prev j = some (above.getD j 0#8) := fun j hj hr =>
    have ⟨hlen, hprev⟩ := (prevHolds_succ hr).1 hk.prev
    hprev.cellAt_eq (hlen ▸ hj)
  have hnone : k.posRow = 0#32 → above = [] := fun hr => (prevHolds_zero hr).1 hk.prev
  unfold Block.MuxGives refNeighbours
  rw [hk.byte]
  refine ⟨?_, ?_, ?_⟩
  · split
    · rfl
    · exact hk.cur.cellAt_eq (by omega)
  · split
    · next hr => rw [hnone hr]; rfl
    · next hr => exact habove _ hlt hr
  · by_cases hleft : line.length < k.bpp.toNat
    · simp [hleft]
    · by_cases hr : k.posRow = 0#32
      · simp [hleft, hr, hnone hr]
      · simpa [hleft, hr] using habove _ (by omega) hr

/-! ## One byte -/

theorem posByte_lt_cap {cap : Nat} {k : Block} (h : k.Inv cap) (hs : k.state = .data) : k.posByte.toNat < cap :=
  lt_of_lt_of_le (h.at_data hs).2.1 (h.config (busy_of_data hs)).row_fits

theorem neighbours_in_row {cap : Nat} {k : Block} {pred : Neighbours → Byte} {above line : List Byte} (h : k.Inv cap)
    (hk : k.InRow pred above line) : neighbours cap k = .ok (refNeighbours k.bpp.toNat above line) :=
  neighbours_of_muxGives (posByte_lt_cap h hk.state) (muxGives_refNeighbours h hk)

/-- Between two rows, or after the last: the row above the next one is `above`, and STATE is as R98 says. -/
structure Block.BetweenRows (k : Block) (above : List Byte) : Prop where
  prev : k.PrevHolds above
  state : k.state = if k.posRow.toNat = k.height.toNat then .done else .filter

/-- The byte the reference delivers next. -/
def refByte (pred : Neighbours → Byte) (bpp : Nat) (above line : List Byte) (x : Byte) : Byte :=
  recon pred x (refNeighbours bpp above line)

section byte
variable {s : State} {pred : Neighbours → Byte} {above line rest : List Byte} {x : Byte}

/-- In a row, the block's data step that answers delivers the byte of the reference. -/
theorem runsTo_data (hs : s.Inv) (hfree : s.FreeRunning) (hk : s.blk.InRow pred above line) (hi : s.host.input = x :: rest)
    {l : Block} {y : Byte} (hd : s.blk.dataStep s.maxRowBytes pred x = .ok (l, y)) :
    s.RunsTo 1 (((s.setBlk l).setInput rest).outWrite y) rest [y] := by
  have ⟨_, hoffer, haccept⟩ := hfree
  have hready : s.dataReady = true := (dataReady_iff s).2 ⟨hoffer, haccept, by simp [hi]⟩
  have hmove := Moves.data x rest l y hk.state hready hi hs.blk.latched (by rw [hk.latched]; exact hd)
  exact runsTo_one hs hfree hmove hfree (blockDataStep_sameConfig hd) rfl

/-- Within a row (R96): the byte joins the row. -/
theorem runsTo_within (hs : s.Inv) (hfree : s.FreeRunning) (hk : s.blk.InRow pred above line)
    (hlen : line.length + 1 < s.blk.rowBytes) (hi : s.host.input = x :: rest) :
    ∃ t, s.RunsTo 1 t rest [refByte pred s.blk.bpp.toNat above line x] ∧
      t.blk.InRow pred above (line ++ [refByte pred s.blk.bpp.toNat above line x]) ∧ t.blk.posRow = s.blk.posRow := by
  have hn := neighbours_in_row hs.blk hk
  have hcap := posByte_lt_cap hs.blk hk.state
  rw [← hk.byte] at hlen
  have hbyte := posByte_succ_toNat hs.blk hs.cap_word hk.state hlen
  have hd := blockDataStep_within (pred := pred) x hn hcap hlen
  rw [hk.byte] at hd
  refine ⟨_, runsTo_data hs hfree hk hi hd, ⟨hk.state, hk.latched, hk.prev, ?_, holds_setCell hk.cur _⟩, rfl⟩
  rw [List.length_append, ← hk.byte]
  exact hbyte

/-- The last byte of a row (R97, R98): the row, now whole, becomes the one above. -/
theorem runsTo_last (hs : s.Inv) (hfree : s.FreeRunning) (hk : s.blk.InRow pred above line)
    (hlen : line.length + 1 = s.blk.rowBytes) (hi : s.host.input = x :: rest) :
    ∃ t, s.RunsTo 1 t rest [refByte pred s.blk.bpp.toNat above line x] ∧
      t.blk.BetweenRows (line ++ [refByte pred s.blk.bpp.toNat above line x]) ∧
      t.blk.posRow.toNat = s.blk.posRow.toNat + 1 := by
  have hn := neighbours_in_row hs.blk hk
  have hrow := posRow_succ_toNat hs.blk hk.state
  have hfit := (hs.blk.config (busy_of_data hk.state)).row_fits
  obtain ⟨p, hcopy, hd⟩ := blockDataStep_last (pred := pred) x hn (by rw [hk.byte]; exact hlen) hfit
    (hs.blk.cur_filled hk.state)
  rw [hk.byte] at hcopy hd
  refine ⟨_, runsTo_data hs hfree hk hi hd, ⟨?_, ?_⟩, hrow⟩
  · have hne : s.blk.posRow + 1#32 ≠ 0#32 := fun h0 => by simp [h0] at hrow
    refine (prevHolds_succ hne).2 ⟨by rw [List.length_append]; exact hlen, fun j hj => ?_⟩
    have hj' : j < s.blk.rowBytes := by rwa [List.length_append, List.length_singleton, hlen] at hj
    exact ((copyCells_ok hcopy).2 j).trans (by rw [if_pos hj']; exact holds_setCell hk.cur _ j hj)
  · exact if_congr BitVec.toNat_inj.symm rfl rfl

end byte

/-! ## One row -/

section row
variable {pred : Neighbours → Byte} {above : List Byte}

/-- From byte `line.length` of a row to its end: the bytes delivered continue `line` to the row of the reference. -/
theorem runsTo_rowEnd {s : State} {line xs rest : List Byte} (hs : s.Inv) (hfree : s.FreeRunning)
    (hk : s.blk.InRow pred above line) (hlen : line.length + xs.length = s.blk.rowBytes) (hi : s.host.input = xs ++ rest) :
    ∃ t out, s.RunsTo xs.length t rest out ∧ line ++ out = refRowFrom pred s.blk.bpp.toNat above line xs ∧
      t.blk.BetweenRows (line ++ out) ∧ t.blk.posRow.toNat = s.blk.posRow.toNat + 1 := by
  induction xs generalizing s line with
  | nil =>
    have hbyte := (hs.blk.at_data hk.state).2.1
    rw [hk.byte, ← hlen] at hbyte
    exact absurd hbyte (lt_irrefl _)
  | cons x xs ih =>
    cases xs with
    | nil =>
      obtain ⟨t, hrun, hbetween, hrow⟩ := runsTo_last hs hfree hk hlen hi
      exact ⟨t, _, hrun, rfl, hbetween, hrow⟩
    | cons x' xs =>
      obtain ⟨t, hrun, hk', hrow⟩ := runsTo_within hs hfree hk (by rw [List.length_cons, List.length_cons] at hlen; omega) hi
      have hlen' : (line ++ [refByte pred s.blk.bpp.toNat above line x]).length + (x' :: xs).length = t.blk.rowBytes := by
        rw [sameConfig_rowBytes hrun.config, ← hlen, List.length_append, List.length_singleton, List.length_cons (a := x)]
        omega
      obtain ⟨u, out, hrun', hline, hbetween, hrow'⟩ := ih hrun.inv hrun.free hk' hlen' hrun.input
      rw [List.append_assoc] at hline hbetween
      rw [sameConfig_bpp hrun.config] at hline
      rw [hrow] at hrow'
      have hrun'' := hrun.trans hrun'
      rw [Nat.add_comm] at hrun''
      exact ⟨u, _, hrun'', hline, hbetween, hrow'⟩

/-- The code latched is the filter-type byte itself, when it is legal (R94). -/
theorem zeroExtend_latched {v : Byte} (hv : v.toNat ≤ 4) : (v.extractLsb' 0 3).zeroExtend 8 = v := by
  apply BitVec.eq_of_toNat_eq
  rw [BitVec.zeroExtend, BitVec.toNat_setWidth, BitVec.extractLsb'_toNat]
  omega

/-- The filter step with a legal byte opens its row (R94). -/
theorem runsTo_latch {s : State} {v : Byte} {rest : List Byte} (hs : s.Inv) (hfree : s.FreeRunning)
    (hf : s.blk.state = .filter) (habove : s.blk.PrevHolds above) (hv : v.toNat ≤ 4) (hi : s.host.input = v :: rest) :
    ∃ t, s.RunsTo 1 t rest [] ∧ t.blk.InRow (predictorOf v) above [] ∧ t.blk.posRow = s.blk.posRow := by
  have hrun := runsTo_one hs hfree (.latch v rest hf hfree.2.1 hi hv) hfree ⟨rfl, rfl, rfl, rfl⟩ (List.append_nil _).symm
  have hbyte : s.blk.posByte.toNat = 0 := by rw [(hs.blk.at_filter hf).2.1]; rfl
  exact ⟨_, hrun, ⟨rfl, congrArg predictorOf (zeroExtend_latched hv), habove, hbyte, nofun⟩, rfl⟩

/-- A whole row of the stream, from its filter-type byte, under the row `above` (R62, R93, R97). -/
theorem runsTo_row {s : State} {v : Byte} {xs rest : List Byte} (hs : s.Inv) (hfree : s.FreeRunning)
    (hf : s.blk.state = .filter) (habove : s.blk.PrevHolds above) (hv : v.toNat ≤ 4) (hlen : xs.length = s.blk.rowBytes)
    (hi : s.host.input = v :: xs ++ rest) :
    ∃ t, s.RunsTo (1 + s.blk.rowBytes) t rest (refRow (predictorOf v) s.blk.bpp.toNat above xs) ∧
      t.blk.BetweenRows (refRow (predictorOf v) s.blk.bpp.toNat above xs) ∧
      t.blk.posRow.toNat = s.blk.posRow.toNat + 1 := by
  obtain ⟨t, hrun, hk, hrow⟩ := runsTo_latch hs hfree hf habove hv hi
  obtain ⟨u, out, hrun', hline, hbetween, hrow'⟩ := runsTo_rowEnd hrun.inv hrun.free hk
    (by rw [sameConfig_rowBytes hrun.config, ← hlen]; exact Nat.zero_add _) hrun.input
  have hout : out = refRow (predictorOf v) s.blk.bpp.toNat above xs := by rw [← sameConfig_bpp hrun.config]; exact hline
  subst hout
  rw [hrow] at hrow'
  rw [← hlen]
  exact ⟨u, hrun.trans hrun', hbetween, hrow'⟩

end row

/-! ## One image -/

theorem refRowFrom_length (pred : Neighbours → Byte) (bpp : Nat) (above line xs : List Byte) :
    (refRowFrom pred bpp above line xs).length = line.length + xs.length := by
  induction xs generalizing line with
  | nil => rfl
  | cons x xs ih => rw [refRowFrom, ih, List.length_append, List.length_singleton, List.length_cons]; omega

/-- The image has the bytes of its rows. -/
theorem refImage_length {n : Nat} (bpp : Nat) (above : List Byte) {rows : List (Byte × List Byte)}
    (h : ∀ row ∈ rows, row.2.length = n) : (refImage bpp above rows).length = rows.length * n := by
  induction rows generalizing above with
  | nil => exact (Nat.zero_mul n).symm
  | cons row rows ih =>
    obtain ⟨hrow, hrows⟩ := List.forall_mem_cons.1 h
    rw [refImage, List.length_append, refRow, refRowFrom_length, hrow, ih _ hrows, List.length_cons, Nat.succ_mul]
    simp [Nat.add_comm]

/-- From between two rows to the end of the image, row by row (R98, R99). -/
theorem runsTo_image {s : State} {above rest : List Byte} {rows : List (Byte × List Byte)} (hs : s.Inv)
    (hfree : s.FreeRunning) (hk : s.blk.BetweenRows above) (hleft : s.blk.posRow.toNat + rows.length = s.blk.height.toNat)
    (hrows : ∀ row ∈ rows, row.1.toNat ≤ 4 ∧ row.2.length = s.blk.rowBytes)
    (hi : s.host.input = imageStream rows ++ rest) :
    ∃ t, s.RunsTo (rows.length * (1 + s.blk.rowBytes)) t rest (refImage s.blk.bpp.toNat above rows) ∧
      t.blk.state = .done := by
  induction rows generalizing s above with
  | nil =>
    have hrun := runsTo_zero hs hfree
    rw [hi] at hrun
    rw [List.length_nil, Nat.zero_mul]
    exact ⟨s, hrun, hk.state.trans (if_pos hleft)⟩
  | cons row rows ih =>
    obtain ⟨⟨hv, hlen⟩, hrows'⟩ := List.forall_mem_cons.1 hrows
    have hf : s.blk.state = .filter := hk.state.trans (if_neg (by rw [List.length_cons] at hleft; omega))
    have hi' : s.host.input = row.1 :: row.2 ++ (imageStream rows ++ rest) := by
      rw [hi, imageStream, List.flatMap_cons, List.append_assoc]; rfl
    obtain ⟨t, hrun, hk', hrow⟩ := runsTo_row hs hfree hf hk.prev hv hlen hi'
    have hbytes := sameConfig_rowBytes hrun.config
    obtain ⟨-, hheight, hbpp, -⟩ := hrun.config
    obtain ⟨u, hrun', hdone⟩ := ih hrun.inv hrun.free hk'
      (by rw [hrow, hheight, ← hleft, List.length_cons]; omega) (by rwa [hbytes]) hrun.input
    rw [hbytes, hbpp] at hrun'
    rw [List.length_cons, Nat.succ_mul, Nat.add_comm]
    exact ⟨u, hrun.trans hrun', hdone⟩

/-- Settles O54: row 0 has no row above, and all HEIGHT rows are left. -/
theorem imageMatchesTheReference : Obligations.ImageMatchesTheReference := by
  intro s rows rest hs hf hr hfree hheight hrows hi
  have hrow : s.blk.posRow.toNat = 0 := by rw [hr]; rfl
  have hpos : s.blk.posRow.toNat ≠ s.blk.height.toNat := ((hs.blk.at_filter hf).1).ne
  obtain ⟨t, hrun, hdone⟩ := runsTo_image hs hfree ⟨(prevHolds_zero hr).2 rfl, hf.trans (if_neg hpos).symm⟩
    (by rw [hrow, hheight, Nat.zero_add]) hrows hi
  rw [hheight] at hrun
  refine ⟨t, hrun.steps, hdone, hrun.input, hrun.output, ?_⟩
  rw [refImage_length _ _ fun row hm => (hrows row hm).2, hheight, Block.outTotal]

end Sys2Proof.Machine
end

section
/-!
SUPPORT. Accesses without a meaning (20_memory R47, R56) and the input a session is bounded by (20_memory R53; 10_state R44).
-/

namespace Sys2Proof.Machine

/-! ## Meaningless accesses -/

/-- A register read or write that is refused ends its step so, whatever the state. -/
theorem step_refused {s : State} {es : List HostEvent} {bits off : Nat} {r : Refusal}
    (hsched : s.host.sched = .read bits off :: es ∨ ∃ v : Word, s.host.sched = .write bits off v :: es)
    (hr : accessRefusal bits off = some r) : step s = .refused r := by
  rw [step_eq, fetch]
  rcases hsched with hs | ⟨v, hs⟩
  · simp [hs, hostEvent, hostRead, hr, Fetched.outcome]
  · simp [hs, hostEvent, hostWrite, hr, Fetched.outcome]

theorem accessRefusal_of_width {bits : Nat} (hw : bits ≠ 32) (off : Nat) : accessRefusal bits off = some .accessWidth :=
  if_pos hw

theorem accessRefusal_of_alignment {off : Nat} (h4 : off % 4 ≠ 0) : accessRefusal 32 off = some .accessAlignment := by
  simp [accessRefusal, h4]

theorem accessRefusal_of_outside {off : Nat} (h4 : off % 4 = 0) (hout : 0x40 ≤ off) :
    accessRefusal 32 off = some .accessOutsideBlock := by
  simp [accessRefusal, h4, hout]

/-- Settles O8: the access is refused before the machine looks at the register, width first, then alignment, then range. -/
theorem meaninglessAccessIsRefused : Obligations.MeaninglessAccessIsRefused := by
  intro s es bits off hsched
  refine ⟨fun hbad => ?_, fun hw h4 hout => ?_⟩
  · by_cases hw : bits = 32
    · subst hw
      have h4 : off % 4 ≠ 0 := hbad.resolve_left (not_not_intro rfl)
      exact ⟨_, step_refused hsched (accessRefusal_of_alignment h4), .inr rfl⟩
    · exact ⟨_, step_refused hsched (accessRefusal_of_width hw off), .inl rfl⟩
  · subst hw
    exact step_refused hsched (accessRefusal_of_outside h4 hout)

/-! ## Bytes a session needs -/

/-- A row not finished has at most r whole rows and `n` of its own bytes behind it, which is less than the image. -/
theorem consumed_lt_of_row {k : Block} {n : Nat} (hrow : k.posRow.toNat < k.height.toNat) (hn : n < 1 + k.rowBytes) :
    k.posRow.toNat * (1 + k.rowBytes) + n < k.needed :=
  calc k.posRow.toNat * (1 + k.rowBytes) + n < k.posRow.toNat * (1 + k.rowBytes) + (1 + k.rowBytes) :=
        Nat.add_lt_add_left hn _
    _ = (k.posRow.toNat + 1) * (1 + k.rowBytes) := (Nat.succ_mul ..).symm
    _ ≤ k.needed := Nat.mul_le_mul_right _ hrow

/-- Settles O46: a running session is at r < HEIGHT, before or inside its row. -/
theorem aRunningSessionHasConsumedFewerThanNeeded : Obligations.ARunningSessionHasConsumedFewerThanNeeded := by
  intro s hs hb
  rcases (busy_iff s.blk).1 hb with hf | hd
  · have hconsumed : s.blk.consumed = s.blk.posRow.toNat * (1 + s.blk.rowBytes) := by simp [Block.consumed, hf]
    rw [hconsumed]
    exact consumed_lt_of_row (n := 0) (hs.blk.at_filter hf).1 (by omega)
  · have hconsumed : s.blk.consumed = s.blk.posRow.toNat * (1 + s.blk.rowBytes) + (1 + s.blk.posByte.toNat) := by
      simp [Block.consumed, hd]
    obtain ⟨hrow, hbyte, -⟩ := hs.blk.at_data hd
    rw [hconsumed]
    exact consumed_lt_of_row hrow (by omega)

end Sys2Proof.Machine
end

section
/-!
SUPPORT. The row of the stream against the reference row (30_encoding R62; 42_sequencer R93, R97).
-/

namespace Sys2Proof.Machine

/-- Settles O53: the run of one row from `runsTo_row`, with R98's STATE read off between two rows under a HEIGHT the row kept. -/
theorem rowMatchesTheReference : Obligations.RowMatchesTheReference := by
  intro s v xs rest above hs hf hfree habove hv hlen hi
  obtain ⟨t, hrun, hbetween, hrow⟩ := runsTo_row hs hfree hf habove hv hlen hi
  obtain ⟨-, hheight, -, -⟩ := hrun.config
  refine ⟨t, hrun.steps, hrun.input, hrun.output, hbetween.prev, hrow, ?_⟩
  rw [hbetween.state, hrow, hheight]

end Sys2Proof.Machine
end

section
/-!
SUPPORT. The decoder and the encoder are inverse on the well-formed instructions (30_encoding R64, R65, R69). A CTRL word is cut by
the mask of the bits its command ignores: what the command reads is `c`, what it ignores is carried in the term (log entry 11).
-/

namespace Sys2Proof

/-! ## A word cut by a mask -/

/-- The bits of a word under a mask joined to the bits outside it are the word. -/
theorem or_and_mask {v c m : Word} (h : v &&& ~~~m = c) : c ||| (v &&& m) = v := by
  rw [← h, ← BitVec.and_or_distrib_left, BitVec.or_comm, BitVec.or_not_self, BitVec.and_allOnes]

/-- A word with no bit outside a mask is its own part under the mask. -/
theorem and_mask_of_masked {g m : Word} (h : g &&& ~~~m = 0#32) : g &&& m = g := by
  rw [← BitVec.zero_or (x := g &&& m)]
  exact or_and_mask h

theorem and_mask_and_not (v m : Word) : v &&& m &&& ~~~m = 0#32 := by
  rw [BitVec.and_assoc, BitVec.and_not_self]
  exact BitVec.and_zero

/-- What is joined to bits outside the mask is found again under it. -/
theorem or_masked_and_mask {c g m : Word} (hc : c &&& m = 0#32) (hg : g &&& ~~~m = 0#32) : (c ||| g) &&& m = g := by
  rw [BitVec.and_or_distrib_right, hc, BitVec.zero_or, and_mask_of_masked hg]

/-! ## The commands -/

theorem wf_start {q : Bool} {g : Word} : (Instr.start q g).wf = true ↔ g &&& ~~~startIgnoredMask = 0#32 := beq_iff_eq

theorem wf_clear {q : Bool} {g : Word} : (Instr.clear q g).wf = true ↔ g &&& ~~~clearIgnoredMask = 0#32 := beq_iff_eq

/-- What a START word holds outside its ignored bits: bit 0, and IRQ_EN in bit 2 (R69). -/
theorem start_bits {v : Word} (h0 : v.getLsbD 0 = true) : v &&& ~~~startIgnoredMask = 1#32 ||| irqEnBit (v.getLsbD 2) := by
  apply BitVec.eq_of_getLsbD_eq
  intro j hj
  rw [BitVec.getLsbD_and, BitVec.getLsbD_not, startIgnoredMask_getLsbD, BitVec.getLsbD_or, BitVec.getLsbD_one, irqEnBit_getLsbD]
  rcases eq_or_ne j 0 with rfl | hj0
  · simp [h0]
  rcases eq_or_ne j 2 with rfl | hj2
  · simp
  · simp [hj, hj0, hj2]

/-- What a CLEAR word holds outside its ignored bits: bit 1 without bit 0, and IRQ_EN in bit 2 (R69). -/
theorem clear_bits {v : Word} (h0 : v.getLsbD 0 = false) (h1 : v.getLsbD 1 = true) :
    v &&& ~~~clearIgnoredMask = 2#32 ||| irqEnBit (v.getLsbD 2) := by
  apply BitVec.eq_of_getLsbD_eq
  intro j hj
  rw [BitVec.getLsbD_and, BitVec.getLsbD_not, clearIgnoredMask_getLsbD, BitVec.getLsbD_or, irqEnBit_getLsbD,
    show 2#32 = BitVec.twoPow 32 1 from rfl, BitVec.getLsbD_twoPow]
  rcases lt_or_ge j 3 with hlow | hhigh
  · interval_cases j
    · rw [h0]; simp
    · rw [h1]; rfl
    · simp
  · have h1j : ¬ 1 = j := by omega
    have hj2 : ¬ j = 2 := by omega
    simp [hj, hhigh, h1j, hj2]

theorem decodeCtrl_encode_start (q : Bool) {g : Word} (hg : g &&& ~~~startIgnoredMask = 0#32) :
    decodeCtrl (1#32 ||| irqEnBit q ||| g) = .ok (.start q g) := by
  have h0 : (1#32 ||| irqEnBit q ||| g).getLsbD 0 = true := by simp
  have h2 : (1#32 ||| irqEnBit q ||| g).getLsbD 2 = q := by
    rw [BitVec.getLsbD_or, BitVec.getLsbD_or, irqEnBit_getLsbD, getLsbD_of_masked hg (by rw [startIgnoredMask_getLsbD]; rfl)]
    simp
  have hc : (1#32 ||| irqEnBit q) &&& startIgnoredMask = 0#32 := by cases q <;> rfl
  rw [decodeCtrl, if_pos h0, h2, or_masked_and_mask hc hg]

theorem decodeCtrl_encode_clear (q : Bool) {g : Word} (hg : g &&& ~~~clearIgnoredMask = 0#32) :
    decodeCtrl (2#32 ||| irqEnBit q ||| g) = .ok (.clear q g) := by
  have hlow : ∀ j, j < 3 → (2#32 ||| irqEnBit q ||| g).getLsbD j = (2#32 ||| irqEnBit q).getLsbD j := fun j hj => by
    rw [BitVec.getLsbD_or (x := _ ||| _), getLsbD_of_masked hg (by simp [clearIgnoredMask_getLsbD, hj]), Bool.or_false]
  have h0 : (2#32 ||| irqEnBit q ||| g).getLsbD 0 = false := (hlow 0 (by decide)).trans (by cases q <;> rfl)
  have h1 : (2#32 ||| irqEnBit q ||| g).getLsbD 1 = true := (hlow 1 (by decide)).trans (by cases q <;> rfl)
  have h2 : (2#32 ||| irqEnBit q ||| g).getLsbD 2 = q := (hlow 2 (by decide)).trans (by cases q <;> rfl)
  have hc : (2#32 ||| irqEnBit q) &&& clearIgnoredMask = 0#32 := by cases q <;> rfl
  rw [decodeCtrl, if_neg (Bool.eq_false_iff.1 h0), if_pos h1, h2, or_masked_and_mask hc hg]

/-! ## Both formats -/

/-- Settles O34: a filter code by computation; a command by its bits 0 to 2 and its part under the mask. -/
theorem decodeOfEncodeIsTheInstruction : Obligations.DecodeOfEncodeIsTheInstruction := by
  intro i hwf
  cases i with
  | filterNone | filterSub | filterUp | filterAverage | filterPaeth => rfl
  | start q g => exact decodeCtrl_encode_start q (wf_start.1 hwf)
  | clear q g => exact decodeCtrl_encode_clear q (wf_clear.1 hwf)

/-- A legal filter-type byte is the code of its instruction (R64, R65). -/
theorem encode_decodeFilter {v : Byte} {i : Instr} (h : decodeFilter v = .ok i) : i.wf = true ∧ encode i = .ft8 v := by
  rcases decodeFilter_cases v with ⟨rfl, hd⟩ | ⟨rfl, hd⟩ | ⟨rfl, hd⟩ | ⟨rfl, hd⟩ | ⟨rfl, hd⟩ | ⟨-, hd⟩
  all_goals
    rw [hd] at h
    cases h
  all_goals exact ⟨rfl, rfl⟩

/-- A command word is what its instruction reads joined to what it ignores (R69). -/
theorem encode_decodeCtrl {v : Word} {i : Instr} (h : decodeCtrl v = .ok i) : i.wf = true ∧ encode i = .ctrl v := by
  rcases decodeCtrl_cases v with ⟨h0, hd⟩ | ⟨h0, h1, hd⟩ | ⟨-, -, hd⟩
  all_goals
    rw [hd] at h
    cases h
  · exact ⟨wf_start.2 (and_mask_and_not ..), congrArg Encoded.ctrl (or_and_mask (start_bits h0))⟩
  · exact ⟨wf_clear.2 (and_mask_and_not ..), congrArg Encoded.ctrl (or_and_mask (clear_bits h0 h1))⟩

/-- Settles O35: each format's decoder drops no bit. -/
theorem encodeOfDecodeIsTheWord : Obligations.EncodeOfDecodeIsTheWord := by
  intro e i h
  cases e with
  | ft8 v => exact encode_decodeFilter h
  | ctrl v => exact encode_decodeCtrl h

/-- Settles O33: the words are literals, so the decoder computes them. -/
theorem sampleWordsDecode : Obligations.SampleWordsDecode :=
  ⟨rfl, rfl, rfl, rfl, rfl, rfl, rfl, rfl, rfl, rfl, rfl, rfl, rfl⟩

end Sys2Proof
end

section
/-!
SUPPORT. The word STATUS reads (10_state R18; 30_encoding R70), by the fields it shows.
-/

namespace Sys2Proof.Machine

/-- STATUS shows three fields of the block and nothing else (R18, R30). -/
theorem statusWord_of_fields {k : Block} {st : SessionState} {c : ErrCode} (hs : k.state = st) (hc : k.errCode = c) :
    k.statusWord = { Block.reset with irqEn := k.irqEn, state := st, errCode := c }.statusWord := by
  subst hs hc
  rfl

/-- Outside ERROR the code it shows is 0 (R42). -/
theorem statusWord_of_noError {k : Block} {st : SessionState} (h : k.ErrorFieldsLegal) (hs : k.state = st) (hst : st ≠ .error) :
    k.statusWord = { Block.reset with irqEn := k.irqEn, state := st, errCode := .noError }.statusWord :=
  statusWord_of_fields hs (noError_of_state_ne h (hs ▸ hst)).1

/-- In ERROR the code is one of the three an error raises (R18, R42). -/
theorem errCode_of_error {k : Block} (h : k.ErrorFieldsLegal) (hs : k.state = .error) :
    k.errCode = .truncatedScanlines ∨ k.errCode = .unknownFilterType ∨ k.errCode = .configError := by
  cases hc : k.errCode with
  | noError => exact absurd hc (errCode_ne_of_error h hs)
  | truncatedScanlines => exact .inl rfl
  | unknownFilterType => exact .inr (.inl rfl)
  | configError => exact .inr (.inr rfl)

/-- Settles O4: with STATE and ERR_CODE given, the word can depend on IRQ_EN only. -/
theorem statusWordIsOneOfTheListed : Obligations.StatusWordIsOneOfTheListed := by
  intro s hs
  have herr := hs.blk.errors
  refine ⟨fun h => (statusWord_of_noError herr h nofun).trans ?_,
    fun h => (statusWord_of_noError herr h nofun).trans ?_,
    fun h => (statusWord_of_noError herr h nofun).trans ?_,
    fun h => (statusWord_of_noError herr h nofun).trans ?_,
    fun h => (errCode_of_error herr h).imp
      (fun hc => ⟨hc, (statusWord_of_fields h hc).trans ?_⟩)
      (.imp (fun hc => ⟨hc, (statusWord_of_fields h hc).trans ?_⟩) fun hc => ⟨hc, (statusWord_of_fields h hc).trans ?_⟩)⟩
  all_goals cases s.blk.irqEn <;> rfl

end Sys2Proof.Machine
end

section
/-!
SUPPORT. The step fetches what the decoder read (30_encoding R61, R66, R69, R73; 42_sequencer R94, R96).
-/

namespace Sys2Proof.Machine

/-! ## What is fetched -/

theorem fetchFilter_of_decode {s : State} {v : Byte} {rest : List Byte} {i : Instr} (ho : s.host.offering = true)
    (hi : s.host.input = v :: rest) (hd : decodeFilter v = .ok i) : fetchFilter s = .run i (s.setInput rest) := by
  simp only [fetchFilter, ho, if_true, hi, hd]

theorem fetchData_of_decode {s : State} {i : Instr} (hr : s.dataReady = true)
    (hd : decodeFilter (s.blk.ftCur.zeroExtend 8) = .ok i) : fetchData s = .run i s := by
  simp only [fetchData, hr, if_true, hd]

theorem hostWrite_of_decode {v : Word} {i : Instr} (hd : decodeCtrl v = .ok i) (s : State) :
    hostWrite 32 0x00 v s = .run i s := by
  simp only [hostWrite, accessRefusal_none.2 ⟨rfl, Nat.zero_mod 4, Nat.zero_lt_succ _⟩, regAt, hd]

theorem fetchStream_of_filter {s : State} (hf : s.blk.state = .filter) : fetchStream s = fetchFilter s := by
  simp only [fetchStream, hf]

theorem fetchStream_of_data {s : State} (hd : s.blk.state = .data) : fetchStream s = fetchData s := by
  simp only [fetchStream, hd]

/-! ## What the step runs -/

/-- On the stream's turn in FILTER, the instruction of the offered byte, the byte consumed (R94). -/
theorem step_of_filterByte {s u : State} {v : Byte} {rest : List Byte} {i : Instr} (hturn : s.StreamTurn u)
    (hf : s.blk.state = .filter) (ho : s.host.offering = true) (hi : s.host.input = v :: rest)
    (hd : decodeFilter v = .ok i) : step s = exec i (u.setInput rest) := by
  obtain ⟨hstep, -, hblk, hinput, hoffer, -⟩ := step_streamTurn hturn
  rw [hstep, fetchStream_of_filter (hblk ▸ hf), fetchFilter_of_decode (hoffer.trans ho) (hinput.trans hi) hd, Fetched.outcome]

/-- On the stream's turn with a data step enabled, the instruction FT_CUR holds (R96). -/
theorem step_of_latchedCode {s u : State} {x : Byte} {rest : List Byte} {i : Instr} (hturn : s.StreamTurn u)
    (hready : s.DataEnabled x rest) (hd : decodeFilter (s.blk.ftCur.zeroExtend 8) = .ok i) : step s = exec i u := by
  obtain ⟨hstep, -, hblk, hinput, hoffer, haccept, -⟩ := step_streamTurn hturn
  obtain ⟨hs, ho, ha, hi⟩ := hready
  have hr : u.dataReady = true :=
    (dataReady_iff u).2 ⟨hoffer.trans ho, haccept.trans ha, by simp [hinput, hi]⟩
  rw [hstep, fetchStream_of_data (hblk ▸ hs), fetchData_of_decode hr (hblk ▸ hd), Fetched.outcome]

/-- On a write to CTRL, the command of the word (R69). -/
theorem step_of_ctrlWord {s : State} {es : List HostEvent} {v : Word} {i : Instr}
    (hsched : s.host.sched = .write 32 0x00 v :: es) (hd : decodeCtrl v = .ok i) : step s = exec i (s.setSched es) := by
  simp only [step_eq, fetch, hsched, hostEvent, hostWrite_of_decode hd, Fetched.outcome]

/-- Settles O36: one rule for each of the three places an instruction is read from. -/
theorem stepRunsTheDecodedInstruction : Obligations.StepRunsTheDecodedInstruction := fun _ _ =>
  ⟨fun _ _ _ hturn hf ho hi hd => step_of_filterByte hturn hf ho hi hd,
    fun _ _ _ hturn hready hd => step_of_latchedCode hturn hready hd, fun _ _ hsched hd => step_of_ctrlWord hsched hd⟩

/-! ## What is placed -/

/-- The opened session is at its first filter step (R109). -/
theorem openSession_state (cap : Nat) (k : Block) : (k.openSession cap).state = .filter := by
  unfold Block.openSession
  cases startCheck cap k <;> rfl

theorem placeFilter_state (s : State) (v : Byte) : (placeFilter s v).blk.state = .filter := by
  by_cases hf : s.blk.state = .filter
  · simp [placeFilter, hf]
  · simp [placeFilter, hf, openSession_state]

theorem toOption_eq_some {r : Except Reject Instr} {i : Instr} (h : r.toOption = some i) : r = .ok i := by
  cases r with
  | error e => cases h
  | ok j => cases h; rfl

/-- Settles O37: the placed byte is offered in FILTER on the stream's turn, the placed word is the host's next action. -/
theorem placedInstructionRunsNext : Obligations.PlacedInstructionRunsNext := by
  refine fun s i w => ⟨fun h => ?_, fun h => ?_⟩
  · have hf := placeFilter_state s (BitVec.ofNat 8 w)
    have hstep := step_of_filterByte (.inr ⟨s.host.sched, rfl, rfl⟩) hf rfl rfl (toOption_eq_some h)
    refine ⟨_, ?_, ?_, ?_, hstep⟩
    · exact hf
    · rfl
    · rfl
  · exact step_of_ctrlWord (s := placeCommand s (BitVec.ofNat 32 w)) rfl (toOption_eq_some h)

end Sys2Proof.Machine
end

section
/-!
SUPPORT. Where a step can fault, and why no state of the invariant gets there (40_operands R82; 10_state R31, R32, R35).
-/

namespace Sys2Proof.Machine

/-! ## Everything a step that faults can be -/

/-- The block is in DATA, and `f` is the fault of a latched code that is not legal, or one its data step ends in (R35; log entries 6
and 7). -/
def Block.DataFaults (cap : Nat) (k : Block) (f : Fault) : Prop :=
  k.state = .data ∧ ((f = .latchedFilterCode ∧ 4 < k.ftCur.toNat) ∨ ∃ pred x, k.dataStep cap pred x = .error f)

section faults
variable {s : State} {f : Fault}

theorem streamStep_fault {code : BitVec 3} {pred : Neighbours → Byte} (h : streamStep code pred s = .fault f) :
    s.blk.DataFaults s.maxRowBytes f := by
  unfold streamStep at h
  cases hs : s.blk.state <;> simp only [hs] at h
  case data =>
    obtain ⟨x, -, -, hd⟩ := dataStep_fault h
    exact ⟨hs, .inr ⟨pred, x, hd⟩⟩
  all_goals cases h

theorem execStart_ne_fault (irqEn : Bool) (ignored : Word) : execStart irqEn ignored s ≠ .fault f := by
  unfold execStart
  split <;> nofun

theorem execClear_ne_fault (irqEn : Bool) (ignored : Word) : execClear irqEn ignored s ≠ .fault f := by
  unfold execClear
  split <;> nofun

/-- Of the instructions only a filter's data step faults. -/
theorem exec_fault {i : Instr} (h : exec i s = .fault f) : s.blk.DataFaults s.maxRowBytes f := by
  cases i with
  | filterNone | filterSub | filterUp | filterAverage | filterPaeth => exact streamStep_fault h
  | start q g => exact absurd h (execStart_ne_fault q g)
  | clear q g => exact absurd h (execClear_ne_fault q g)

theorem fetchFilter_fault (h : (fetchFilter s).outcome = .fault f) : s.blk.DataFaults s.maxRowBytes f := by
  unfold fetchFilter at h
  split at h
  · split at h
    · cases h
    · next rest hi =>
      split at h
      · exact exec_fault (s := s.setInput rest) h
      · cases h
  · cases h

/-- A code the decoder rejects is above 4 (R65). -/
theorem decodeFilter_error_gt {v : Byte} {r : Reject} (h : decodeFilter v = .error r) : 4 < v.toNat := by
  rcases decodeFilter_cases v with ⟨-, hd⟩ | ⟨-, hd⟩ | ⟨-, hd⟩ | ⟨-, hd⟩ | ⟨-, hd⟩ | ⟨hv, -⟩
  case inr.inr.inr.inr.inr => exact hv
  all_goals
    rw [hd] at h
    cases h

theorem fetchData_fault (hs : s.blk.state = .data) (h : (fetchData s).outcome = .fault f) :
    s.blk.DataFaults s.maxRowBytes f := by
  unfold fetchData at h
  split at h
  · split at h
    · exact exec_fault h
    · next hd =>
      have hcode : (s.blk.ftCur.zeroExtend 8).toNat = s.blk.ftCur.toNat := BitVec.toNat_setWidth_of_le (by decide)
      cases h
      exact ⟨hs, .inl ⟨rfl, hcode ▸ decodeFilter_error_gt hd⟩⟩
  · cases h

theorem fetchStream_fault (h : (fetchStream s).outcome = .fault f) : s.blk.DataFaults s.maxRowBytes f := by
  unfold fetchStream at h
  cases hs : s.blk.state <;> simp only [hs] at h
  case filter => exact fetchFilter_fault h
  case data => exact fetchData_fault hs h
  all_goals cases h

theorem hostRead_ne_fault (bits off : Nat) : (hostRead bits off s).outcome ≠ .fault f := by
  unfold hostRead
  split <;> nofun

theorem hostWrite_fault {bits off : Nat} {v : Word} (h : (hostWrite bits off v s).outcome = .fault f) :
    s.blk.DataFaults s.maxRowBytes f := by
  unfold hostWrite at h
  split at h
  · cases h
  · split at h
    · split at h
      · exact exec_fault h
      · cases h
    · cases h

theorem hostEvent_fault {e : HostEvent} (h : (hostEvent e s).outcome = .fault f) : s.blk.DataFaults s.maxRowBytes f := by
  cases e with
  | run => exact fetchStream_fault h
  | lines o a => cases h
  | read bits off => exact absurd h (hostRead_ne_fault bits off)
  | write bits off v => exact hostWrite_fault h
  | reset => cases h

/-- A step faults in DATA only, the counterpart of `step_moves`. -/
theorem step_fault (h : step s = .fault f) : s.blk.DataFaults s.maxRowBytes f := by
  rw [step_eq] at h
  unfold fetch at h
  split at h
  · exact fetchStream_fault h
  · next e es hsched => exact hostEvent_fault (s := s.setSched es) h

end faults

/-! ## The data step answers -/

section answers
variable {cap : Nat} {k : Block}

theorem bpp_pos (h : k.ConfigLegal cap) : 0 < k.bpp.toNat := by
  rcases h.bpp_legal with hb | hb | hb <;> simp [hb]

/-- An operand has a value if its cell holds one wherever the mux reads it (R78). -/
theorem exists_operand {c : Prop} [Decidable c] {o : Option Byte} (h : ¬ c → o.isSome = true) :
    ∃ v, if c then v = 0#8 else o = some v := by
  split
  · exact ⟨_, rfl⟩
  · next hc => exact Option.isSome_iff_exists.1 (h hc)

/-- The operands have values (R82): a lies left of i in CUR, and b and c lie in PREV, which holds a whole row from row 1 on. -/
theorem exists_muxGives (h : k.Inv cap) (hs : k.state = .data) : ∃ a b c, k.MuxGives a b c := by
  have hbusy := busy_of_data hs
  have hbpp := bpp_pos (h.config hbusy)
  have hbyte := (h.at_data hs).2.1
  obtain ⟨a, ha⟩ := exists_operand (c := k.posByte.toNat < k.bpp.toNat) fun hleft =>
    h.cur_filled hs (k.posByte.toNat - k.bpp.toNat) (by omega)
  obtain ⟨b, hb⟩ := exists_operand (c := k.posRow = 0#32) fun hfirst => h.prev_filled hbusy hfirst _ hbyte
  obtain ⟨c, hc⟩ := exists_operand (c := k.posByte.toNat < k.bpp.toNat ∨ k.posRow = 0#32) fun hedge =>
    h.prev_filled hbusy (not_or.1 hedge).2 (k.posByte.toNat - k.bpp.toNat) (by omega)
  exact ⟨a, b, c, ha, hb, hc⟩

/-- The data step answers, whatever the predictor and the input byte: CUR[i] lies inside the buffer, and a row is committed only when
all its cells have been written (R96, R97). -/
theorem blockDataStep_total (h : k.Inv cap) (hs : k.state = .data) (pred : Neighbours → Byte) (x : Byte) :
    ∃ q, k.dataStep cap pred x = .ok q := by
  obtain ⟨a, b, c, hmux⟩ := exists_muxGives h hs
  have hcap := posByte_lt_cap h hs
  have hn := neighbours_of_muxGives hcap hmux
  by_cases hi : k.posByte.toNat + 1 < k.rowBytes
  · exact ⟨_, blockDataStep_within x hn hcap hi⟩
  · have hlast : k.posByte.toNat + 1 = k.rowBytes := by
      have hbyte := (h.at_data hs).2.1
      omega
    obtain ⟨p, -, hd⟩ := blockDataStep_last x hn hlast (h.config (busy_of_data hs)).row_fits (h.cur_filled hs)
    exact ⟨_, hd⟩

theorem not_dataFaults (h : k.Inv cap) (f : Fault) : ¬ k.DataFaults cap f := by
  rintro ⟨hs, ⟨-, hcode⟩ | ⟨pred, x, hd⟩⟩
  · exact absurd h.latched (by omega)
  · obtain ⟨q, hq⟩ := blockDataStep_total h hs pred x
    rw [hq] at hd
    cases hd

end answers

/-- Settles O41: a step faults only where FT_CUR holds no legal code or the data step does not answer, and the invariant excludes
both. -/
theorem noStepFaults : Obligations.NoStepFaults := fun _ f hs hstep => not_dataFaults hs.blk f (step_fault hstep)

end Sys2Proof.Machine
end

section
/-!
SUPPORT. The arithmetic of the predictors (41_filters R83 to R91): the value each filter delivers, the Paeth distances without p, and
the boundary identities.
-/

namespace Sys2Proof.Machine

/-! ## The common frame -/

/-- The sum of R83, on numbers. -/
theorem recon_toNat (pred : Neighbours → Byte) (x : Byte) (n : Neighbours) :
    (recon pred x n).toNat = (x.toNat + (pred n).toNat) % 256 := BitVec.toNat_ofNat _ _

/-- The sum of R83, on bytes. -/
theorem recon_eq_add (pred : Neighbours → Byte) (x : Byte) (n : Neighbours) : recon pred x n = x + pred n :=
  BitVec.eq_of_toNat_eq ((recon_toNat pred x n).trans (BitVec.toNat_add _ _).symm)

/-- Where the predictor is 0 the byte passes unchanged. -/
theorem recon_of_pred_zero {pred : Neighbours → Byte} {n : Neighbours} (h : pred n = 0#8) (x : Byte) : recon pred x n = x := by
  rw [recon_eq_add, h, BitVec.add_zero]

/-- Reconstruction undoes the forward filter's x = (y - pred) mod 256. -/
theorem recon_sub_pred (pred : Neighbours → Byte) (y : Byte) (n : Neighbours) : recon pred (y - pred n) n = y := by
  rw [recon_eq_add, BitVec.sub_add_cancel]

/-! ## AVERAGE -/

/-- The half of an exact sum of two bytes is a byte (R87). -/
theorem predAverage_toNat (n : Neighbours) : (predAverage n).toNat = (n.a.toNat + n.b.toNat) / 2 := by
  have ha := n.a.isLt
  have hb := n.b.isLt
  rw [predAverage, BitVec.toNat_ofNat, Nat.mod_eq_of_lt (by omega)]

theorem recon_predAverage_toNat (x : Byte) (n : Neighbours) :
    (recon predAverage x n).toNat = (x.toNat + (n.a.toNat + n.b.toNat) / 2) % 256 := by
  rw [recon_toNat, predAverage_toNat]

/-! ## The Paeth distances -/

/-- R90's distance of a candidate `v` from p = a + b - c, an absolute value on integers, is the model's. -/
theorem abs_sub_eq_paethDist (n : Neighbours) (v : Byte) :
    |(n.a.toNat : Int) + n.b.toNat - n.c.toNat - v.toNat| = paethDist n v := (Int.natCast_natAbs _).symm

/-- pa = |b - c| (R89). -/
theorem paethDist_a (n : Neighbours) : paethDist n n.a = ((n.b.toNat : Int) - n.c.toNat).natAbs :=
  congrArg Int.natAbs (by rw [paethP]; omega)

/-- pb = |a - c| (R89). -/
theorem paethDist_b (n : Neighbours) : paethDist n n.b = ((n.a.toNat : Int) - n.c.toNat).natAbs :=
  congrArg Int.natAbs (by rw [paethP]; omega)

/-- pc = |a + b - 2c| (R89). -/
theorem paethDist_c (n : Neighbours) : paethDist n n.c = ((n.a.toNat : Int) + n.b.toNat - 2 * n.c.toNat).natAbs :=
  congrArg Int.natAbs (by rw [paethP]; omega)

/-- Settles O30: the ranges are those of sums and differences of three bytes. -/
theorem paethDistancesNeedNoPredictor : Obligations.PaethDistancesNeedNoPredictor := by
  intro n
  have ha := n.a.isLt
  have hb := n.b.isLt
  have hc := n.c.isLt
  rw [paethDist_a, paethDist_b, paethDist_c, Int.natCast_natAbs, Int.natCast_natAbs, Int.natCast_natAbs, paethP]
  exact ⟨by omega, by omega, rfl, by omega, rfl, by omega, rfl, by omega⟩

/-! ## The choice of the Paeth predictor -/

section choice
variable {n : Neighbours}

theorem predPaeth_of_a (hab : paethDist n n.a ≤ paethDist n n.b) (hac : paethDist n n.a ≤ paethDist n n.c) :
    predPaeth n = n.a := if_pos ⟨hab, hac⟩

theorem predPaeth_of_b (ha : ¬ (paethDist n n.a ≤ paethDist n n.b ∧ paethDist n n.a ≤ paethDist n n.c))
    (hbc : paethDist n n.b ≤ paethDist n n.c) : predPaeth n = n.b := (if_neg ha).trans (if_pos hbc)

theorem predPaeth_of_c (ha : ¬ (paethDist n n.a ≤ paethDist n n.b ∧ paethDist n n.a ≤ paethDist n n.c))
    (hbc : ¬ paethDist n n.b ≤ paethDist n n.c) : predPaeth n = n.c := (if_neg ha).trans (if_neg hbc)

end choice

/-- R90's choice among three numbers, written out on integers. -/
theorem predPaeth_toNat (a b c : Byte) :
    (predPaeth ⟨a, b, c⟩).toNat =
      let p : Int := (a.toNat : Int) + b.toNat - c.toNat
      let pa := |p - a.toNat|
      let pb := |p - b.toNat|
      let pc := |p - c.toNat|
      if pa ≤ pb ∧ pa ≤ pc then a.toNat else if pb ≤ pc then b.toNat else c.toNat := by
  have hdist : ∀ v : Byte, |(a.toNat : Int) + b.toNat - c.toNat - v.toNat| = paethDist ⟨a, b, c⟩ v :=
    abs_sub_eq_paethDist ⟨a, b, c⟩
  simp only [hdist, Nat.cast_le, predPaeth, apply_ite BitVec.toNat]

/-- No candidate is closer to p than the predictor (R90). -/
theorem paethDist_predPaeth_le (n : Neighbours) :
    paethDist n (predPaeth n) ≤ paethDist n n.a ∧ paethDist n (predPaeth n) ≤ paethDist n n.b ∧
      paethDist n (predPaeth n) ≤ paethDist n n.c := by
  by_cases ha : paethDist n n.a ≤ paethDist n n.b ∧ paethDist n n.a ≤ paethDist n n.c
  · rw [predPaeth_of_a ha.1 ha.2]
    exact ⟨le_rfl, ha⟩
  · by_cases hbc : paethDist n n.b ≤ paethDist n n.c
    · rw [predPaeth_of_b ha hbc]
      omega
    · rw [predPaeth_of_c ha hbc]
      omega

/-- Settles O29: R90's comparisons are those of the model's distances, and none of them picks a candidate that is not closest. -/
theorem paethPicksTheClosestCandidate : Obligations.PaethPicksTheClosestCandidate := by
  intro n
  refine ⟨?_, by decide⟩
  simp only [abs_sub_eq_paethDist, Nat.cast_le]
  exact ⟨predPaeth_of_a, predPaeth_of_b, predPaeth_of_c, paethDist_predPaeth_le n⟩

/-! ## The boundary identities -/

/-- With b = c = 0, p = a and pa = 0 (R91). -/
theorem predPaeth_firstRow (a : Byte) : predPaeth ⟨a, 0#8, 0#8⟩ = a := by
  have hpa : paethDist ⟨a, 0#8, 0#8⟩ a = 0 := paethDist_a ⟨a, 0#8, 0#8⟩
  exact predPaeth_of_a (hpa.le.trans (Nat.zero_le _)) (hpa.le.trans (Nat.zero_le _))

/-- With a = c = 0, p = b and pb = 0; a wins only where it is b (R91). -/
theorem predPaeth_leftEdge (b : Byte) : predPaeth ⟨0#8, b, 0#8⟩ = b := by
  have hpa : paethDist ⟨0#8, b, 0#8⟩ 0#8 = b.toNat := by simpa using paethDist_a ⟨0#8, b, 0#8⟩
  have hpb : paethDist ⟨0#8, b, 0#8⟩ b = 0 := paethDist_b ⟨0#8, b, 0#8⟩
  by_cases h : paethDist ⟨0#8, b, 0#8⟩ 0#8 ≤ paethDist ⟨0#8, b, 0#8⟩ b
  · have hb : b = 0#8 := BitVec.eq_of_toNat_eq (Nat.le_zero.1 (by rwa [hpa, hpb] at h))
    rw [hb, predPaeth_firstRow]
  · exact predPaeth_of_b (fun ha => h ha.1) (hpb.le.trans (Nat.zero_le _))

/-- A tie between a and b with a ≠ b puts c on p, so that c wins (R91). -/
theorem predPaeth_of_tie {n : Neighbours} (hne : n.a ≠ n.b) (htie : paethDist n n.a = paethDist n n.b) :
    n.a.toNat + n.b.toNat = 2 * n.c.toNat ∧ paethDist n n.c = 0 ∧ 0 < paethDist n n.a ∧ predPaeth n = n.c := by
  have hne' : n.a.toNat ≠ n.b.toNat := fun h => hne (BitVec.eq_of_toNat_eq h)
  rw [paethDist_a, paethDist_b] at htie
  have hsum : n.a.toNat + n.b.toNat = 2 * n.c.toNat := by omega
  have hpc : paethDist n n.c = 0 := by rw [paethDist_c]; omega
  have hpa : 0 < paethDist n n.a := by rw [paethDist_a]; omega
  have hpb : 0 < paethDist n n.b := by rw [paethDist_b]; omega
  exact ⟨hsum, hpc, hpa, predPaeth_of_c (fun h => by omega) (by omega)⟩

/-- Settles O31: each row of R91's table by the filter's sum, with the Paeth predictor a, b or 0 there. -/
theorem boundaryIdentitiesOfTheFilters : Obligations.BoundaryIdentitiesOfTheFilters := by
  refine ⟨fun x a => ⟨recon_toNat .., recon_of_pred_zero rfl x, recon_predAverage_toNat .., ?_⟩,
    fun x b => ⟨recon_of_pred_zero rfl x, recon_toNat .., ?_, ?_⟩,
    fun x => ⟨recon_of_pred_zero rfl x, recon_of_pred_zero rfl x, recon_of_pred_zero rfl x,
      recon_of_pred_zero (predPaeth_firstRow _) x⟩,
    fun _ hne htie => predPaeth_of_tie hne htie, by decide, by decide⟩
  · rw [recon_toNat, predPaeth_firstRow]
  · simp [recon_predAverage_toNat]
  · rw [recon_toNat, predPaeth_leftEdge]

end Sys2Proof.Machine
end

section
/-!
SUPPORT. Rows of the reference: the row a filter leaves as it is (41_filters R84 to R86) and the round trip through the forward filter
(95_test_vectors 2.11, E1).
-/

namespace Sys2Proof.Machine

/-- A row is continued unchanged where the predictor is 0 after each of its beginnings. -/
theorem refRowFrom_of_pred_zero {pred : Neighbours → Byte} {bpp : Nat} {above line xs : List Byte}
    (h : ∀ pre, pre <+: xs → pred (refNeighbours bpp above (line ++ pre)) = 0#8) :
    refRowFrom pred bpp above line xs = line ++ xs := by
  induction xs generalizing line with
  | nil => exact (List.append_nil line).symm
  | cons x xs ih =>
    have hx : recon pred x (refNeighbours bpp above line) = x :=
      recon_of_pred_zero (by simpa using h [] List.nil_prefix) x
    have hxs : ∀ pre, pre <+: xs → pred (refNeighbours bpp above (line ++ [x] ++ pre)) = 0#8 := fun pre hpre => by
      rw [List.append_assoc]
      exact h (x :: pre) ((List.prefix_cons_inj x).2 hpre)
    rw [refRowFrom, hx, ih hxs, List.append_assoc, List.singleton_append]

theorem refRow_predNone (bpp : Nat) (above xs : List Byte) : refRow predNone bpp above xs = xs :=
  refRowFrom_of_pred_zero fun _ _ => rfl

/-- In an all-zero row a is 0 at every position (R85). -/
theorem refRow_predSub_replicate_zero (bpp n : Nat) (above : List Byte) :
    refRow predSub bpp above (List.replicate n 0#8) = List.replicate n 0#8 := by
  refine refRowFrom_of_pred_zero fun pre hpre => ?_
  obtain ⟨-, hpre⟩ := List.prefix_replicate_iff.1 hpre
  rw [List.nil_append, hpre]
  simp [predSub, refNeighbours]

/-- In the first row b is 0 at every position (R86). -/
theorem refRow_predUp_nil (bpp : Nat) (xs : List Byte) : refRow predUp bpp [] xs = xs :=
  refRowFrom_of_pred_zero fun _ _ => rfl

/-- Reconstruction goes over the forward-filtered bytes with the neighbours the forward filter had. -/
theorem refRowFrom_forwardRowFrom (pred : Neighbours → Byte) (bpp : Nat) (above line ys : List Byte) :
    refRowFrom pred bpp above line (forwardRowFrom pred bpp above line ys) = line ++ ys := by
  induction ys generalizing line with
  | nil => exact (List.append_nil line).symm
  | cons y ys ih => rw [forwardRowFrom, refRowFrom, recon_sub_pred, ih, List.append_assoc, List.singleton_append]

/-- Settles O32: the whole row, from its beginning. -/
theorem rowRoundTrip : Obligations.RowRoundTrip := fun pred bpp above ys => refRowFrom_forwardRowFrom pred bpp above [] ys

end Sys2Proof.Machine
end

section
/-!
SUPPORT. What an enabled data step delivers (42_sequencer R96), and with it the five filters (41_filters R84 to R88).
-/

namespace Sys2Proof.Machine

/-! ## The byte delivered -/

/-- The mux gives b = c = 0 in the first row (R77). -/
theorem muxGives_firstRow {k : Block} {a b c : Byte} (h : k.MuxGives a b c) (hr : k.posRow = 0#32) : b = 0#8 ∧ c = 0#8 := by
  obtain ⟨-, hb, hc⟩ := h
  rw [if_pos hr] at hb
  rw [if_pos (.inr hr)] at hc
  exact ⟨hb, hc⟩

/-- The mux gives a = c = 0 at the left edge (R76). -/
theorem muxGives_leftEdge {k : Block} {a b c : Byte} (h : k.MuxGives a b c) (hi : k.posByte.toNat < k.bpp.toNat) :
    a = 0#8 ∧ c = 0#8 := by
  obtain ⟨ha, -, hc⟩ := h
  rw [if_pos hi] at ha
  rw [if_pos (.inl hi)] at hc
  exact ⟨ha, hc⟩

/-- A data step raises no error (R92). -/
theorem blockDataStep_noError {cap : Nat} {pred : Neighbours → Byte} {k l : Block} {x y : Byte} (hs : k.state = .data)
    (h : k.dataStep cap pred x = .ok (l, y)) : l.errCode = k.errCode ∧ l.state ≠ .error := by
  obtain ⟨-, ⟨-, rfl⟩ | ⟨-, p, -, rfl⟩⟩ := blockDataStep_cases h
  · exact ⟨rfl, by simp [hs]⟩
  · exact ⟨rfl, (nextRow_state_ne _ p).2⟩

/-- From `s` to `t` the byte `y` is delivered, one byte is consumed so that `rest` stays, and no error is raised. -/
structure State.Delivers (s : State) (rest : List Byte) (y : Byte) (t : State) : Prop where
  output : t.host.output = s.host.output ++ [y]
  input : t.host.input = rest
  errCode : t.blk.errCode = s.blk.errCode
  noError : t.blk.state ≠ .error

/-- An enabled data step of the filter with predictor `pred` delivers the sum of R83 for the operands of the mux. -/
theorem streamStep_delivers {s : State} {x : Byte} {rest : List Byte} {a b c : Byte} (hs : s.Inv)
    (he : s.DataEnabled x rest) (hmux : s.blk.MuxGives a b c) (code : BitVec 3) (pred : Neighbours → Byte) :
    ∃ t, streamStep code pred s = .next t ∧ s.Delivers rest (recon pred x ⟨a, b, c⟩) t := by
  obtain ⟨hdata, hoffer, haccept, hi⟩ := he
  have hready : s.dataReady = true := (dataReady_iff s).2 ⟨hoffer, haccept, by simp [hi]⟩
  obtain ⟨⟨l, y⟩, hd⟩ := blockDataStep_total hs.blk hdata pred x
  obtain ⟨n, hn, rfl, -⟩ := blockDataStep_ok.1 hd
  rw [neighbours_of_muxGives (posByte_lt_cap hs.blk hdata) hmux] at hn
  cases hn
  obtain ⟨hcode, hstate⟩ := blockDataStep_noError hdata hd
  refine ⟨((s.setBlk l).setInput rest).outWrite _, ?_, rfl, rfl, hcode, hstate⟩
  rw [streamStep, hdata]
  exact dataStep_next.2 (.inr ⟨hready, x, rest, l, _, hi, hd, rfl⟩)

/-! ## The five filters -/

/-- Settles O19: 0 is added to x, whatever the operands. -/
theorem noneDeliversItsInput : Obligations.NoneDeliversItsInput := by
  refine ⟨rfl, refRow_predNone, fun s x rest hs he => ?_⟩
  have ⟨hdata, _⟩ := he
  obtain ⟨a, b, c, hmux⟩ := exists_muxGives hs.blk hdata
  obtain ⟨t, hexec, ht⟩ := streamStep_delivers hs he hmux 0#3 predNone
  rw [recon_of_pred_zero rfl] at ht
  exact ⟨t, hexec, ht.output, ht.input, ht.errCode, ht.noError⟩

/-- Settles O20: the predictor is the mux's a, which is 0 at the left edge. -/
theorem subDeliversSumWithLeft : Obligations.SubDeliversSumWithLeft := by
  refine ⟨rfl, refRow_predSub_replicate_zero, fun s x rest a b c hs he hmux => ?_⟩
  obtain ⟨t, hexec, ht⟩ := streamStep_delivers hs he hmux 1#3 predSub
  exact ⟨t, _, hexec, ht.output, ht.input, recon_toNat .., fun hi => recon_of_pred_zero (muxGives_leftEdge hmux hi).1 x,
    ht.errCode, ht.noError⟩

/-- Settles O21: the predictor is the mux's b, which is 0 in the first row. -/
theorem upDeliversSumWithAbove : Obligations.UpDeliversSumWithAbove := by
  refine ⟨rfl, refRow_predUp_nil, fun s x rest a b c hs he hmux => ?_⟩
  obtain ⟨t, hexec, ht⟩ := streamStep_delivers hs he hmux 2#3 predUp
  exact ⟨t, _, hexec, ht.output, ht.input, recon_toNat .., fun hr => recon_of_pred_zero (muxGives_firstRow hmux hr).1 x,
    ht.errCode, ht.noError⟩

/-- Settles O22: half the exact sum is added, and an operand that the mux forces to 0 drops out of it. -/
theorem averageDeliversSumWithExactHalf : Obligations.AverageDeliversSumWithExactHalf := by
  refine ⟨rfl, fun s x rest a b c hs he hmux => ?_⟩
  obtain ⟨t, hexec, ht⟩ := streamStep_delivers hs he hmux 3#3 predAverage
  refine ⟨t, _, hexec, ht.output, ht.input, recon_predAverage_toNat .., fun hr => ?_, fun hi => ?_, fun hr hi => ?_,
    ht.errCode, ht.noError⟩
  · obtain ⟨rfl, -⟩ := muxGives_firstRow hmux hr
    exact recon_predAverage_toNat ..
  · obtain ⟨rfl, -⟩ := muxGives_leftEdge hmux hi
    simp [recon_predAverage_toNat]
  · obtain ⟨rfl, rfl⟩ := muxGives_firstRow hmux hr
    obtain ⟨rfl, -⟩ := muxGives_leftEdge hmux hi
    exact recon_of_pred_zero rfl x

/-- Settles O23: the Paeth predictor is added, which is a in the first row and b at the left edge. -/
theorem paethDeliversSumWithPredictor : Obligations.PaethDeliversSumWithPredictor := by
  refine ⟨rfl, fun s x rest a b c hs he hmux => ?_⟩
  obtain ⟨t, hexec, ht⟩ := streamStep_delivers hs he hmux 4#3 predPaeth
  refine ⟨t, _, _, hexec, ht.output, ht.input, recon_toNat .., predPaeth_toNat a b c, fun hr => ?_, fun hi => ?_,
    fun hr hi => ?_, ht.errCode, ht.noError⟩
  · obtain ⟨rfl, rfl⟩ := muxGives_firstRow hmux hr
    rw [recon_toNat, predPaeth_firstRow]
  · obtain ⟨rfl, rfl⟩ := muxGives_leftEdge hmux hi
    rw [recon_toNat, predPaeth_leftEdge]
  · obtain ⟨rfl, rfl⟩ := muxGives_firstRow hmux hr
    obtain ⟨rfl, -⟩ := muxGives_leftEdge hmux hi
    exact recon_of_pred_zero (predPaeth_firstRow _) x

end Sys2Proof.Machine
end

section
/-!
SUPPORT. What the stream step does with the byte it is offered, and that a supplied session ends (42_sequencer R93 to R96, R100;
70_reset_and_hazards R149).
-/

namespace Sys2Proof.Machine

/-! ## The turn of the stream step -/

/-- The turn of the stream step is the host's doing nothing, taken from its plan. -/
theorem takes_of_streamTurn {s u : State} (h : s.StreamTurn u) : Takes s .run u := by
  rcases h with ⟨hs, rfl⟩ | ⟨es, hs, rfl⟩
  · exact .inl ⟨hs, rfl, rfl⟩
  · exact .inr ⟨es, hs, rfl⟩

/-- On its turn the stream step takes every move of the stream. -/
theorem step_of_streamMove {s u t : State} (h : s.StreamTurn u) (hm : Moves u .run t) : step s = .next t :=
  step_of_moves (takes_of_streamTurn h) hm

/-- No stream step exists in IDLE, DONE and ERROR (R100). -/
theorem moves_hold_of_idle_done_error {s : State} (hs : s.blk.state = .idle ∨ s.blk.state = .done ∨ s.blk.state = .error) :
    Moves s .run s := by
  rcases hs with hs | hs | hs <;> exact .hold (by simp [hs]) (by simp [hs])

/-- In FILTER the stream holds without an offered byte (R100). -/
theorem moves_hold_of_filter {s : State} (hs : s.blk.state = .filter) (hno : s.host.offering = false ∨ s.host.input = []) :
    Moves s .run s := by
  refine .hold (fun _ => Bool.eq_false_iff.2 fun hr => ?_) (by simp [hs])
  obtain ⟨hoffer, hne⟩ := (inReady_iff s).1 hr
  rcases hno with hno | hno
  · simp [hoffer] at hno
  · exact hne hno

/-- In DATA the stream holds unless both ports can transfer (R100). -/
theorem moves_hold_of_data {s : State} (hs : s.blk.state = .data)
    (hno : s.host.offering = false ∨ s.host.input = [] ∨ s.host.accepting = false) : Moves s .run s := by
  refine .hold (by simp [hs]) fun _ => Bool.eq_false_iff.2 fun hr => ?_
  obtain ⟨hoffer, haccept, hne⟩ := (dataReady_iff s).1 hr
  rcases hno with hno | hno | hno
  · simp [hoffer] at hno
  · exact hne hno
  · simp [haccept] at hno

/-! ## The byte offered -/

/-- The session is over as R93 has it: by its last row, or by an illegal filter-type byte. -/
def Block.SessionOver (k : Block) : Prop := k.state = .done ∨ (k.state = .error ∧ k.errCode = .unknownFilterType)

/-- In FILTER an offered byte is consumed, and nothing is delivered: the byte is latched, or it ends the session (R94, R95). -/
theorem exists_filterMove {s : State} {v : Byte} {rest : List Byte} (hs : s.blk.state = .filter)
    (ho : s.host.offering = true) (hi : s.host.input = v :: rest) :
    ∃ t, Moves s .run t ∧ t.host = { s.host with input := rest } ∧ (t.blk.busy = true ∨ t.blk.SessionOver) := by
  rcases Nat.lt_or_ge 4 v.toNat with hv | hv
  · exact ⟨_, .reject v rest hs ho hi hv, rfl, .inr (.inr ⟨rfl, rfl⟩)⟩
  · exact ⟨_, .latch v rest hs ho hi hv, rfl, .inl rfl⟩

/-- A data step goes on with the session or ends it in DONE (R96, R98). -/
theorem blockDataStep_busy_or_done {cap : Nat} {pred : Neighbours → Byte} {k l : Block} {x y : Byte} (hs : k.state = .data)
    (h : k.dataStep cap pred x = .ok (l, y)) : l.busy = true ∨ l.state = .done := by
  obtain ⟨-, ⟨-, rfl⟩ | ⟨-, p, -, rfl⟩⟩ := blockDataStep_cases h
  · exact .inl (busy_of_data hs)
  · by_cases hlast : k.posRow + 1#32 = k.height
    · exact .inr ((nextRow_done_iff _ p).2 hlast)
    · exact .inl (busy_of_filter ((nextRow_filter_iff _ p).2 hlast))

/-- In DATA, with both ports ready, one byte is consumed and one delivered (R96). -/
theorem exists_dataMove {s : State} {x : Byte} {rest : List Byte} (hs : s.Inv) (he : s.DataEnabled x rest) :
    ∃ t y, Moves s .run t ∧ t.host = { s.host with input := rest, output := s.host.output ++ [y] } ∧
      (t.blk.busy = true ∨ t.blk.SessionOver) := by
  obtain ⟨hdata, hoffer, haccept, hi⟩ := he
  have hready : s.dataReady = true := (dataReady_iff s).2 ⟨hoffer, haccept, by simp [hi]⟩
  obtain ⟨⟨l, y⟩, hd⟩ := blockDataStep_total hs.blk hdata (predictorOf (s.blk.ftCur.zeroExtend 8)) x
  exact ⟨_, y, .data x rest l y hdata hready hi hs.blk.latched hd, rfl, (blockDataStep_busy_or_done hdata hd).imp_right .inl⟩

/-- Settles O27: each row of R100's table is one move of the stream, and the turn leaves the block and both ports as they were. -/
theorem streamStepIsEnabledAsTheTableSays : Obligations.StreamStepIsEnabledAsTheTableSays := by
  intro s u hs hturn
  have hu : u.Inv := takes_inv (takes_of_streamTurn hturn) hs
  obtain ⟨-, -, hblk, hinput, hoffer, haccept, houtput, -⟩ := step_streamTurn hturn
  rw [← hblk, ← hinput, ← hoffer, ← haccept, ← houtput]
  refine ⟨fun hno => ?_, fun hf => ⟨fun hno => ?_, fun v rest ho hi => ?_⟩,
    fun hd => ⟨fun hno => ?_, fun x rest ho hi ha => ?_⟩⟩
  · exact step_of_streamMove hturn (moves_hold_of_idle_done_error hno)
  · exact step_of_streamMove hturn (moves_hold_of_filter hf hno)
  · obtain ⟨t, hmove, hhost, -⟩ := exists_filterMove hf ho hi
    exact ⟨t, step_of_streamMove hturn hmove, by rw [hhost], by rw [hhost]⟩
  · exact step_of_streamMove hturn (moves_hold_of_data hd hno)
  · obtain ⟨t, y, hmove, hhost, -⟩ := exists_dataMove hu ⟨hd, ho, ha, hi⟩
    exact ⟨t, y, step_of_streamMove hturn hmove, by rw [hhost], by rw [hhost]⟩

/-! ## A supplied session -/

/-- A running session that is offered a byte by a free-running host consumes it, and then runs on or is over. -/
theorem exists_suppliedStep {s : State} {x : Byte} {rest : List Byte} (hs : s.Inv) (hb : s.blk.busy = true)
    (hfree : s.FreeRunning) (hi : s.host.input = x :: rest) :
    ∃ t, step s = .next t ∧ t.FreeRunning ∧ t.host.input = rest ∧ (t.blk.busy = true ∨ t.blk.SessionOver) := by
  have ⟨hsched, hoffer, haccept⟩ := hfree
  have hturn : s.StreamTurn s := .inl ⟨hsched, rfl⟩
  rcases (busy_iff s.blk).1 hb with hf | hd
  · obtain ⟨t, hmove, hhost, hend⟩ := exists_filterMove hf hoffer hi
    exact ⟨t, step_of_streamMove hturn hmove, by rw [State.FreeRunning, hhost]; exact hfree, by rw [hhost], hend⟩
  · obtain ⟨t, y, hmove, hhost, hend⟩ := exists_dataMove hs ⟨hd, hoffer, haccept, hi⟩
    exact ⟨t, step_of_streamMove hturn hmove, by rw [State.FreeRunning, hhost]; exact hfree, by rw [hhost], hend⟩

/-- Such a step brings the session one byte nearer to NEEDED, which it keeps (R36, R44). -/
theorem suppliedStep_consumed {s t : State} {x : Byte} (hs : s.Inv) (hb : s.blk.busy = true) (hfree : s.FreeRunning)
    (hstep : step s = .next t) (hi : s.host.input = x :: t.host.input) :
    t.blk.consumed = s.blk.consumed + 1 ∧ t.blk.needed = s.blk.needed := by
  have hno : ∀ es, s.host.sched ≠ .reset :: es := by simp [hfree.1]
  obtain ⟨taken, htaken, -, hconsumed⟩ := everyConsumedByteIsCounted s t hs hb hno hstep
  obtain ⟨hw, hh, hbpp, -⟩ := configurationIsFixedWhileBusy s t hb hno hstep
  have hlen : taken.length = 1 := by
    have h := congrArg List.length (hi.symm.trans htaken)
    simp only [List.length_cons, List.length_append] at h
    omega
  exact ⟨hlen ▸ hconsumed, needed_congr hh hw hbpp⟩

/-- Settles O52, by induction on the number of bytes still missing: the session has consumed fewer than NEEDED (O46), so the host has
one more byte, and the step that takes it ends the session or leaves one byte fewer missing. -/
theorem aSuppliedSessionEnds : Obligations.ASuppliedSessionEnds := by
  intro s hs hb hfree hsupply
  induction hmissing : s.blk.needed - s.blk.consumed generalizing s with
  | zero => exact absurd (aRunningSessionHasConsumedFewerThanNeeded s hs hb) (by omega)
  | succ n ih =>
    cases hi : s.host.input with
    | nil =>
      rw [hi, List.length_nil] at hsupply
      omega
    | cons x rest =>
      obtain ⟨t, hstep, hfree', rfl, hbusy | hover⟩ := exists_suppliedStep hs hb hfree hi
      · obtain ⟨hconsumed, hneeded⟩ := suppliedStep_consumed hs hb hfree hstep hi
        rw [hi, List.length_cons] at hsupply
        obtain ⟨k, u, hk, hrun, hover⟩ :=
          ih t (everyStepKeepsTheInvariant s t hs hstep) hbusy hfree' (by omega) (by omega)
        exact ⟨k + 1, u, by omega, (runSteps_succ hstep k).trans hrun, hover⟩
      · exact ⟨1, t, by omega, runSteps_succ hstep 0, hover⟩

end Sys2Proof.Machine
end

section
/-!
SUPPORT. The filter step (42_sequencer R94, R95), and what an outcome survives (60_exceptions R126).
-/

namespace Sys2Proof.Machine

/-! ## A legal code -/

/-- The filter-type instructions with the codes they latch (30_encoding R64, R68). -/
def filterCodes : List (Instr × BitVec 3) :=
  [(.filterNone, 0#3), (.filterSub, 1#3), (.filterUp, 2#3), (.filterAverage, 3#3), (.filterPaeth, 4#3)]

/-- Each filter-type instruction is the shared step with its own code and predictor (30_encoding R64, R74). -/
theorem exec_eq_streamStep {i : Instr} {code : BitVec 3} (h : (i, code) ∈ filterCodes) :
    ∃ pred, ∀ s, exec i s = streamStep code pred s := by
  simp only [filterCodes, List.mem_cons, Prod.mk.injEq, List.not_mem_nil, or_false] at h
  obtain ⟨rfl, rfl⟩ | ⟨rfl, rfl⟩ | ⟨rfl, rfl⟩ | ⟨rfl, rfl⟩ | ⟨rfl, rfl⟩ := h
  · exact ⟨predNone, fun _ => rfl⟩
  · exact ⟨predSub, fun _ => rfl⟩
  · exact ⟨predUp, fun _ => rfl⟩
  · exact ⟨predAverage, fun _ => rfl⟩
  · exact ⟨predPaeth, fun _ => rfl⟩

theorem streamStep_of_filter {s : State} (hs : s.blk.state = .filter) (code : BitVec 3) (pred : Neighbours → Byte) :
    streamStep code pred s = .next (s.setBlk (s.blk.latchFilter code)) := by
  simp only [streamStep, hs]

/-- Settles O15: in FILTER the shared step latches the instruction's code. -/
theorem filterInstructionLatchesItsCode : Obligations.FilterInstructionLatchesItsCode := by
  intro s i code hmem hf
  obtain ⟨pred, hexec⟩ := exec_eq_streamStep hmem
  exact (hexec s).trans (streamStep_of_filter hf code pred)

/-- Settles O16: the machine latches the byte's low three bits, which are all of a legal code. -/
theorem filterStepConsumesAndLatches : Obligations.FilterStepConsumesAndLatches := by
  intro s u v rest hturn hf ho hi hv
  obtain ⟨-, -, hblk, hinput, hoffer, -⟩ := step_streamTurn hturn
  have hcode : (v.extractLsb' 0 3).toNat = v.toNat := by
    rw [BitVec.extractLsb'_toNat]
    omega
  rw [← hblk] at hf ⊢
  exact ⟨_, hcode, step_of_streamMove hturn (.latch v rest hf (hoffer.trans ho) (hinput.trans hi) hv)⟩

/-! ## An illegal code -/

/-- The action is no reset, START or CLEAR. A write to CTRL whose word has no command bit is none of them (R69). -/
def HostEvent.NoCommand (e : HostEvent) : Prop :=
  e ≠ .reset ∧ ∀ w : Word, e = .write 32 0x00 w → w.getLsbD 0 = false ∧ w.getLsbD 1 = false

/-- What outlasts the end of a session from `s` to `t`: STATE with the error fields, and both streams. -/
structure State.SameOutcome (s t : State) : Prop where
  state : t.blk.state = s.blk.state
  errCode : t.blk.errCode = s.blk.errCode
  errInfo : t.blk.errInfo = s.blk.errInfo
  errRow : t.blk.errRow = s.blk.errRow
  input : t.host.input = s.host.input
  output : t.host.output = s.host.output

theorem State.SameOutcome.trans {s t u : State} (h : s.SameOutcome t) (h' : t.SameOutcome u) : s.SameOutcome u :=
  ⟨h'.state.trans h.state, h'.errCode.trans h.errCode, h'.errInfo.trans h.errInfo, h'.errRow.trans h.errRow,
    h'.input.trans h.input, h'.output.trans h.output⟩

/-- No register write but a command touches STATE or an error field (R106, R116). -/
theorem writeReg_sameOutcome (s : State) (r : Reg) (v : Word) : s.SameOutcome (s.setBlk (s.blk.writeReg r v)) := by
  rcases writeReg_cases s.blk r v with ⟨-, heq⟩ | ⟨-, -, heq⟩ | ⟨-, -, heq⟩ <;> rw [heq]
  · exact ⟨rfl, rfl, rfl, rfl, rfl, rfl⟩
  · exact ⟨rfl, rfl, rfl, rfl, rfl, rfl⟩
  · cases r <;> exact ⟨rfl, rfl, rfl, rfl, rfl, rfl⟩

/-- DONE and ERROR are left, and their outcome replaced, only by a command or a reset (R98, R126). -/
theorem moves_sameOutcome {s t : State} {e : HostEvent} (hm : Moves s e t) (hb : s.blk.busy = false) (he : e.NoCommand) :
    s.SameOutcome t := by
  obtain ⟨hreset, hcommand⟩ := he
  cases hm with
  | hold | lines | read => exact ⟨rfl, rfl, rfl, rfl, rfl, rfl⟩
  | latch _ _ hs | reject _ _ hs => exact absurd hs (state_ne_of_not_busy hb).1
  | data _ _ _ _ hs => exact absurd hs (state_ne_of_not_busy hb).2
  | write off v => exact writeReg_sameOutcome s (regAt off) v
  | ignored _ hbusy => simp [hb] at hbusy
  | start v _ h0 => exact absurd ((hcommand v rfl).1.symm.trans h0) nofun
  | clear v _ _ h1 => exact absurd ((hcommand v rfl).2.symm.trans h1) nofun
  | reset => exact absurd rfl hreset

/-- Only taking an action changes the host's plan. -/
theorem moves_sched {s t : State} {e : HostEvent} (hm : Moves s e t) : t.host.sched = s.host.sched := by
  cases hm <;> rfl

/-- The action taken from a plan without commands is none, and neither is any left in the plan. -/
theorem takes_noCommand {s u : State} {e : HostEvent} (h : Takes s e u) (hplan : ∀ e ∈ s.host.sched, e.NoCommand) :
    e.NoCommand ∧ ∀ e ∈ u.host.sched, e.NoCommand := by
  rcases h with ⟨-, rfl, rfl⟩ | ⟨es, hsched, rfl⟩
  · exact ⟨⟨nofun, nofun⟩, hplan⟩
  · rw [hsched] at hplan
    exact List.forall_mem_cons.1 hplan

theorem step_sameOutcome {s t : State} (hb : s.blk.busy = false) (hplan : ∀ e ∈ s.host.sched, e.NoCommand)
    (hstep : step s = .next t) : s.SameOutcome t ∧ ∀ e ∈ t.host.sched, e.NoCommand := by
  obtain ⟨e, u, htake, hmove⟩ := step_moves hstep
  obtain ⟨-, hblk, hinput, -, -, houtput, -⟩ := takes_same htake
  obtain ⟨he, hplan'⟩ := takes_noCommand htake hplan
  have hturn : s.SameOutcome u := by constructor <;> simp only [hblk, hinput, houtput]
  exact ⟨hturn.trans (moves_sameOutcome hmove (hblk ▸ hb) he), moves_sched hmove ▸ hplan'⟩

/-- Along a run without commands an outcome stays (R126). -/
theorem runSteps_sameOutcome {k : Nat} {s t : State} (hb : s.blk.busy = false) (hplan : ∀ e ∈ s.host.sched, e.NoCommand)
    (hrun : runSteps k s = .next t) : s.SameOutcome t := by
  induction k generalizing s with
  | zero =>
    cases hrun
    exact ⟨rfl, rfl, rfl, rfl, rfl, rfl⟩
  | succ k ih =>
    rw [runSteps] at hrun
    cases hstep : step s with
    | next u =>
      rw [hstep] at hrun
      obtain ⟨hsame, hplan'⟩ := step_sameOutcome hb hplan hstep
      have hb' : u.blk.busy = false := by rw [Block.busy, hsame.state]; exact hb
      exact hsame.trans (ih hb' hplan' hrun)
    | fault f => simp [hstep] at hrun
    | refused r => simp [hstep] at hrun

/-- Settles O17: the machine rejects the byte, and the ERROR it enters is an outcome, with which both streams stand still. -/
theorem illegalFilterByteEndsTheSession : Obligations.IllegalFilterByteEndsTheSession := by
  intro s u v rest hturn hf ho hi hv
  obtain ⟨-, -, hblk, hinput, hoffer, -, houtput, -⟩ := step_streamTurn hturn
  rw [← hblk] at hf ⊢
  have hmove := Moves.reject v rest hf (hoffer.trans ho) (hinput.trans hi) hv
  refine ⟨_, step_of_streamMove hturn hmove, rfl, fun hplan k t' hrun => ?_⟩
  have hsame := runSteps_sameOutcome rfl hplan hrun
  exact ⟨hsame.input, hsame.output.trans houtput, hsame.state⟩

end Sys2Proof.Machine
end

section
/-!
SUPPORT. The data step of the five filter-type instructions (42_sequencer R96 to R98, R101), and how DONE is entered.
-/

namespace Sys2Proof.Machine

/-! ## The shared step of the five instructions -/

/-- The five filter-type instructions differ in their code and their predictor only (30_encoding R74). -/
theorem exec_filter_eq_streamStep {i : Instr}
    (h : i ∈ [Instr.filterNone, .filterSub, .filterUp, .filterAverage, .filterPaeth]) :
    ∃ code pred, ∀ s, exec i s = streamStep code pred s := by
  have hmap : i ∈ filterCodes.map Prod.fst := h
  obtain ⟨⟨i, code⟩, hcode, rfl⟩ := List.mem_map.1 hmap
  exact ⟨code, exec_eq_streamStep hcode⟩

theorem streamStep_of_data {s : State} (hs : s.blk.state = .data) (code : BitVec 3) (pred : Neighbours → Byte) :
    streamStep code pred s = dataStep pred s := by
  simp only [streamStep, hs]

/-- An enabled data step of the block at the ports. -/
theorem exec_of_blockDataStep {s : State} {x y : Byte} {rest : List Byte} {i : Instr} {code : BitVec 3}
    {pred : Neighbours → Byte} {l : Block} (hexec : ∀ s, exec i s = streamStep code pred s) (he : s.DataEnabled x rest)
    (hd : s.blk.dataStep s.maxRowBytes pred x = .ok (l, y)) :
    exec i s = .next (((s.setBlk l).setInput rest).outWrite y) := by
  obtain ⟨hdata, hoffer, haccept, hi⟩ := he
  have hready : s.dataReady = true := (dataReady_iff s).2 ⟨hoffer, haccept, by simp [hi]⟩
  rw [hexec, streamStep_of_data hdata]
  exact dataStep_next.2 (.inr ⟨hready, x, rest, l, y, hi, hd, rfl⟩)

/-- The mux answers (R82). -/
theorem exists_neighbours {cap : Nat} {k : Block} (h : k.Inv cap) (hs : k.state = .data) : ∃ n, neighbours cap k = .ok n := by
  obtain ⟨a, b, c, hmux⟩ := exists_muxGives h hs
  exact ⟨_, neighbours_of_muxGives (posByte_lt_cap h hs) hmux⟩

/-! ## Within a row and at its end -/

/-- Settles O24: the block's data step within a row, its counters not wrapping. -/
theorem dataStepAdvancesWithinARow : Obligations.DataStepAdvancesWithinARow := by
  intro s x rest i hs he hmem hlt
  have ⟨hdata, _⟩ := he
  obtain ⟨code, pred, hexec⟩ := exec_filter_eq_streamStep hmem
  obtain ⟨n, hn⟩ := exists_neighbours hs.blk hdata
  have hd := blockDataStep_within (pred := pred) x hn (posByte_lt_cap hs.blk hdata) hlt
  have hcount := outCount_succ_toNat hs.blk hdata
  have hbyte := posByte_succ_toNat hs.blk hs.cap_word hdata hlt
  exact ⟨_, _, exec_of_blockDataStep hexec he hd, rfl, rfl, cellAt_setCell_self .., hcount, hbyte, rfl, hdata⟩

/-- Settles O25: the block's data step at the end of a row, whose copy moves the cells of CUR below ROW_BYTES to PREV. -/
theorem lastDataStepCommitsTheRow : Obligations.LastDataStepCommitsTheRow := by
  intro s x rest i hs he hmem hlast
  have ⟨hdata, _⟩ := he
  obtain ⟨code, pred, hexec⟩ := exec_filter_eq_streamStep hmem
  obtain ⟨n, hn⟩ := exists_neighbours hs.blk hdata
  obtain ⟨p, hcopy, hd⟩ := blockDataStep_last (pred := pred) x hn hlast (hs.blk.config (busy_of_data hdata)).row_fits
    (hs.blk.cur_filled hdata)
  obtain ⟨-, hp⟩ := copyCells_ok hcopy
  have hrow := posRow_succ_toNat hs.blk hdata
  have hcount := outCount_succ_toNat hs.blk hdata
  refine ⟨_, _, exec_of_blockDataStep hexec he hd, rfl, rfl, fun j hj => ?_, ?_, fun j hj => ?_, cellAt_nil, hrow, rfl,
    hcount, ?_⟩
  · exact (hp j).trans (by rw [if_pos (by omega), cellAt_setCell_other _ hj.ne'])
  · exact (hp _).trans (by rw [if_pos (by omega), cellAt_setCell_self])
  · exact (hp j).trans (if_neg (by omega))
  · refine if_congr ?_ rfl rfl
    rw [← hrow]
    exact BitVec.toNat_inj.symm

/-! ## The frame -/

/-- Everything a filter-type instruction can do in DATA: hold, reconstruct a byte within the row, or the last one of it (R96, R97,
R100). -/
theorem exec_data_cases {s t : State} {i : Instr}
    (hmem : i ∈ [Instr.filterNone, .filterSub, .filterUp, .filterAverage, .filterPaeth]) (hs : s.blk.state = .data)
    (h : exec i s = .next t) :
    t = s ∨ ∃ rest y k, k = (s.blk.setCur (setCell s.blk.cur s.blk.posByte.toNat y)).countOutput ∧
      ((s.blk.posByte.toNat + 1 < s.blk.rowBytes ∧ t = ((s.setBlk k.nextByte).setInput rest).outWrite y) ∨
        (s.blk.rowBytes ≤ s.blk.posByte.toNat + 1 ∧ ∃ p,
          copyCells s.maxRowBytes k.cur s.blk.rowBytes s.blk.prev = .ok p ∧
          t = ((s.setBlk (k.nextRow p)).setInput rest).outWrite y)) := by
  obtain ⟨code, pred, hexec⟩ := exec_filter_eq_streamStep hmem
  rw [hexec, streamStep_of_data hs] at h
  rcases dataStep_next.1 h with ⟨-, rfl⟩ | ⟨-, x, rest, l, y, -, hd, rfl⟩
  · exact .inl rfl
  · refine .inr ⟨rest, y, _, rfl, ?_⟩
    obtain ⟨-, ⟨hlt, rfl⟩ | ⟨hle, p, hcopy, rfl⟩⟩ := blockDataStep_cases hd
    · exact .inl ⟨hlt, rfl⟩
    · exact .inr ⟨hle, p, hcopy, rfl⟩

/-- Settles O26: in each of the three cases only the position, OUT_COUNT, STATE, the row buffers and the two streams are written, and
the cells written are CUR[i], or those of PREV below ROW_BYTES. -/
theorem dataStepLeavesTheRestUnchanged : Obligations.DataStepLeavesTheRestUnchanged := by
  intro s t i hmem hs h
  rcases exec_data_cases hmem hs h with rfl | ⟨rest, y, k, rfl, ⟨hlt, rfl⟩ | ⟨hle, p, hcopy, rfl⟩⟩
  all_goals refine ⟨rfl, rfl, rfl, rfl, rfl, rfl, rfl, rfl, rfl, rfl, rfl, rfl, rfl, rfl, fun hi => ?_, fun j hj => ?_⟩
  · exact ⟨rfl, fun _ => rfl, fun _ _ => rfl⟩
  · rfl
  · exact ⟨rfl, fun _ => rfl, fun j hj => cellAt_setCell_other _ hj.symm _⟩
  · rfl
  · omega
  · exact ((copyCells_ok hcopy).2 j).trans (if_neg (by omega))

/-! ## What a data step reads -/

/-- An operand keeps its value where the cell it is read from holds the same (R78). -/
theorem operand_congr {c : Prop} [Decidable c] {o o' : Option Byte} {v : Byte} (h : ¬ c → o = o')
    (hv : if c then v = 0#8 else o = some v) : if c then v = 0#8 else o' = some v := by
  by_cases hc : c
  · rwa [if_pos hc] at hv ⊢
  · rw [if_neg hc] at hv ⊢
    rwa [← h hc]

/-- Settles O28: the mux gives both machines the same operands, so both deliver the same sum. -/
theorem dataStepLooksBackOneRowOnly : Obligations.DataStepLooksBackOneRowOnly := by
  intro s t x rest rest' i hs ht hes het hmem hrow hbyte hbpp hleft habove hcorner
  obtain ⟨code, pred, hexec⟩ := exec_filter_eq_streamStep hmem
  have ⟨hdata, _⟩ := hes
  obtain ⟨a, b, c, hmux⟩ := exists_muxGives hs.blk hdata
  have hmux' : t.blk.MuxGives a b c := by
    obtain ⟨ha, hb, hc⟩ := hmux
    rw [Block.MuxGives, ← hrow, ← hbyte, ← hbpp]
    exact ⟨operand_congr (fun h => hleft (not_lt.1 h)) ha, operand_congr habove hb,
      operand_congr (fun h => hcorner (not_or.1 h).2 (not_lt.1 (not_or.1 h).1)) hc⟩
  obtain ⟨s', hstep, hdel⟩ := streamStep_delivers hs hes hmux code pred
  obtain ⟨t', hstep', hdel'⟩ := streamStep_delivers ht het hmux' code pred
  exact ⟨s', t', _, (hexec s).trans hstep, (hexec t).trans hstep', hdel.output, hdel'.output⟩

/-! ## Entering DONE -/

/-- Settles O48: after a step that was not taken in DONE, R42 holds as listed (O40). -/
theorem doneIsEnteredAfterTheWholeImage : Obligations.DoneIsEnteredAfterTheWholeImage := by
  intro s t hs hne hstep hdone
  rcases listedInvariantsHoldUntilReconfigured s t hs hstep with hlisted | ⟨hsdone, -⟩
  · exact hlisted.at_done hdone
  · exact absurd hsdone hne

end Sys2Proof.Machine
end

section
/-!
SUPPORT. The register space as the host meets it: what a read returns, and what a configuration write stores (10_state R17 to R28;
43_host_commands R105, R107, R116).
-/

namespace Sys2Proof.Machine

/-! ## The computed flags -/

theorem busy_eq_decide (k : Block) : k.busy = decide (k.state = .filter ∨ k.state = .data) :=
  Bool.eq_iff_iff.2 ((busy_iff k).trans decide_eq_true_iff.symm)

theorem irq_eq_decide (k : Block) : k.irq = (k.irqEn && decide (k.state = .done ∨ k.state = .error)) :=
  Bool.eq_iff_iff.2 (by rw [irq_iff, Bool.and_eq_true, decide_eq_true_iff])

/-! ## The fields of a register word -/

theorem ctrlWord_toNat (k : Block) : k.ctrlWord.toNat = if k.irqEn then 4 else 0 := by
  unfold Block.ctrlWord
  cases k.irqEn <;> rfl

theorem statusWord_state (k : Block) : k.statusWord.extractLsb' 0 3 = k.state.code := BitVec.extractLsb'_append_eq_right

theorem statusWord_bit3 (k : Block) : k.statusWord.getLsbD 3 = false := by
  simp only [Block.statusWord, BitVec.getLsbD_append]
  rfl

theorem statusWord_errCode (k : Block) : k.statusWord.extractLsb' 4 4 = k.errCode.code := by
  unfold Block.statusWord
  iterate 2 rw [BitVec.extractLsb'_append_eq_of_le (by decide)]
  exact BitVec.extractLsb'_append_eq_right

theorem statusWord_busy (k : Block) : k.statusWord.getLsbD 8 = k.busy := by
  simp only [Block.statusWord, BitVec.getLsbD_append]
  exact BitVec.getLsbD_ofBool ..

theorem statusWord_irq (k : Block) : k.statusWord.getLsbD 9 = k.irq := by
  simp only [Block.statusWord, BitVec.getLsbD_append]
  exact BitVec.getLsbD_ofBool ..

theorem statusWord_high (k : Block) : k.statusWord.extractLsb' 10 22 = 0#22 := by
  unfold Block.statusWord
  iterate 4 rw [BitVec.extractLsb'_append_eq_of_le (by decide)]
  exact BitVec.extractLsb'_append_eq_left

/-- BPP and FT_CUR are read with zeros above their three bits (R22, R26). -/
theorem zeroExtend_field_toNat (f : BitVec 3) : (f.zeroExtend 32).toNat = f.toNat :=
  BitVec.toNat_setWidth_of_le (by decide)

/-- The two registers a 64-bit item is read through (R23, R27). -/
theorem lowHalf_toNat (n : BitVec 64) : (n.extractLsb' 0 32).toNat = n.toNat % 2 ^ 32 := by
  rw [BitVec.extractLsb'_toNat, Nat.shiftRight_zero]

theorem highHalf_toNat (n : BitVec 64) : (n.extractLsb' 32 32).toNat = n.toNat / 2 ^ 32 := by
  have hlt := n.isLt
  rw [BitVec.extractLsb'_toNat, Nat.shiftRight_eq_div_pow, Nat.mod_eq_of_lt (by omega)]

/-! ## Reads -/

theorem step_of_read {s : State} {es : List HostEvent} {off : Nat} (hsched : s.host.sched = .read 32 off :: es)
    (h4 : off % 4 = 0) (hlt : off < 0x40) :
    step s = .next ((s.setSched es).giveRead (s.blk.readReg (regAt off))) :=
  step_of_moves (.inr ⟨es, hsched, rfl⟩) (.read off h4 hlt)

/-- Settles O3: a read is a move that gives the host the register's word; each offset then asks for a field of that word. -/
theorem registerReadReturnsItsFields : Obligations.RegisterReadReturnsItsFields := by
  intro s es off hsched h4 hlt
  refine ⟨_, step_of_read hsched h4 hlt, ?ctrl, ?status, ?width, ?height, ?bpp, ?inlenLo, ?inlenHi, ?errInfo, ?errRow,
    ?posRow, ?posByte, ?ftCur, ?outCountLo, ?outCountHi, ?unmapped⟩
  case unmapped => rintro (rfl | rfl) <;> rfl
  all_goals rintro rfl
  case width | height | errInfo | errRow | posRow | posByte => rfl
  case ctrl => exact ctrlWord_toNat _
  case status =>
    exact ⟨statusWord_state _, statusWord_bit3 _, statusWord_errCode _, (statusWord_busy _).trans (busy_eq_decide _),
      (statusWord_irq _).trans (irq_eq_decide _), statusWord_high _⟩
  case bpp | ftCur => exact zeroExtend_field_toNat _
  case inlenLo | outCountLo => exact lowHalf_toNat _
  case inlenHi | outCountHi => exact highHalf_toNat _

/-! ## Configuration writes -/

/-- The offsets of the five configuration registers (R38), aligned and inside the block. -/
theorem configOffset_regular {off : Nat} (h : off = 0x08 ∨ off = 0x0C ∨ off = 0x10 ∨ off = 0x14 ∨ off = 0x18) :
    off % 4 = 0 ∧ off < 0x40 ∧ regAt off ≠ .ctrl := by
  rcases h with rfl | rfl | rfl | rfl | rfl <;> decide

/-- A write to a register other than CTRL is no command. -/
theorem step_of_configWrite {s : State} {es : List HostEvent} {off : Nat} {v : Word}
    (hsched : s.host.sched = .write 32 off v :: es)
    (hoff : off = 0x08 ∨ off = 0x0C ∨ off = 0x10 ∨ off = 0x14 ∨ off = 0x18) :
    step s = .next ((s.setSched es).setBlk (s.blk.writeReg (regAt off) v)) :=
  have ⟨h4, hlt, hreg⟩ := configOffset_regular hoff
  step_of_moves (.inr ⟨es, hsched, rfl⟩) (.write off v h4 hlt fun hctrl => absurd hctrl hreg)

theorem writeReg_of_not_busy {k : Block} (hb : k.busy = false) {r : Reg} (hr : r ≠ .ctrl) (v : Word) :
    k.writeReg r v = k.writeConfig r v := by
  rcases writeReg_cases k r v with ⟨hctrl, -⟩ | ⟨-, hb', -⟩ | ⟨-, -, heq⟩
  · exact absurd hctrl hr
  · simp [hb] at hb'
  · exact heq

theorem writeReg_config_of_busy {k : Block} (hb : k.busy = true) {r : Reg} (hr : r ≠ .ctrl) (v : Word) :
    k.writeReg r v = k := by
  rcases writeReg_cases k r v with ⟨hctrl, -⟩ | ⟨-, -, heq⟩ | ⟨-, hb', -⟩
  · exact absurd hctrl hr
  · exact heq
  · simp [hb] at hb'

/-- Settles O5: the step stores the word in the field of its register, for BPP its low three bits and for INLEN one half. -/
theorem configurationWriteStoresItsField : Obligations.ConfigurationWriteStoresItsField := by
  intro s es off v hsched hb
  have hstep (hoff : off = 0x08 ∨ off = 0x0C ∨ off = 0x10 ∨ off = 0x14 ∨ off = 0x18) :
      step s = .next ((s.setSched es).setBlk (s.blk.writeConfig (regAt off) v)) := by
    obtain ⟨-, -, hreg⟩ := configOffset_regular hoff
    rw [step_of_configWrite hsched hoff, writeReg_of_not_busy hb hreg]
  refine ⟨?width, ?height, ?bpp, ?inlenLo, ?inlenHi⟩ <;> rintro rfl
  case width | height => exact hstep (by decide)
  case bpp => exact ⟨_, BitVec.extractLsb'_toNat .., hstep (by decide)⟩
  case inlenLo => exact ⟨_, writeConfig_inlenLo_toNat s.blk v, hstep (by decide)⟩
  case inlenHi => exact ⟨_, writeConfig_inlenHi_toNat s.blk v, hstep (by decide)⟩

/-- Settles O6: the write leaves a running block as it is. -/
theorem configurationWriteIgnoredWhileBusy : Obligations.ConfigurationWriteIgnoredWhileBusy := by
  intro s es off v hsched hb hoff
  obtain ⟨-, -, hreg⟩ := configOffset_regular hoff
  rw [step_of_configWrite hsched hoff, writeReg_config_of_busy hb hreg]
  rfl

end Sys2Proof.Machine
end

section
/-!
SUPPORT. What a CTRL write does in every state: IRQ_EN, START and CLEAR (43_host_commands R108 to R114).
-/

namespace Sys2Proof.Machine

/-! ## The commands, accepted and ignored -/

theorem exec_start_of_busy {s : State} (hb : s.blk.busy = true) (irqEn : Bool) (ignored : Word) :
    exec (.start irqEn ignored) s = .next (s.setBlk (s.blk.setIrqEn irqEn)) := by
  simp [exec, execStart, hb]

theorem exec_clear_of_not_busy {s : State} (hb : s.blk.busy = false) (irqEn : Bool) (ignored : Word) :
    exec (.clear irqEn ignored) s = .next (s.setBlk (s.blk.setIrqEn irqEn).clear) := by
  simp [exec, execClear, hb]

theorem exec_clear_of_busy {s : State} (hb : s.blk.busy = true) (irqEn : Bool) (ignored : Word) :
    exec (.clear irqEn ignored) s = .next (s.setBlk (s.blk.setIrqEn irqEn)) := by
  simp [exec, execClear, hb]

/-! ## A CTRL write -/

/-- The block after a write of `v` to CTRL: IRQ_EN is set, and outside a session the command bits act, bit 0 before bit 1 (R69, R108,
R114). -/
def Block.writeCtrl (cap : Nat) (k : Block) (v : Word) : Block :=
  if k.busy then k.setIrqEn (v.getLsbD 2)
  else if v.getLsbD 0 then (k.setIrqEn (v.getLsbD 2)).start cap
  else if v.getLsbD 1 then (k.setIrqEn (v.getLsbD 2)).clear
  else k.setIrqEn (v.getLsbD 2)

/-- `writeCtrl` is what the machine does with a word written to CTRL. -/
theorem moves_writeCtrl (s : State) (v : Word) : Moves s (.write 32 0x00 v) (s.setBlk (s.blk.writeCtrl s.maxRowBytes v)) := by
  unfold Block.writeCtrl
  split_ifs with hb h0 h1
  · by_cases hc : v.getLsbD 0 = true ∨ v.getLsbD 1 = true
    · exact .ignored v hb hc
    · exact .write 0x00 v rfl (by decide) fun _ => by simpa using hc
  · exact .start v (by simpa using hb) h0
  · exact .clear v (by simpa using hb) (by simpa using h0) h1
  · exact .write 0x00 v rfl (by decide) fun _ => by simpa using And.intro h0 h1

theorem step_of_ctrlWrite {s : State} {es : List HostEvent} {v : Word} (hsched : s.host.sched = .write 32 0x00 v :: es) :
    step s = .next ((s.setSched es).setBlk (s.blk.writeCtrl s.maxRowBytes v)) :=
  step_of_moves (.inr ⟨es, hsched, rfl⟩) (moves_writeCtrl (s.setSched es) v)

@[simp] theorem start_irqEn (cap : Nat) (k : Block) : (k.start cap).irqEn = k.irqEn := by
  rcases start_cases cap k with ⟨-, h⟩ | ⟨c, i, -, h⟩ <;> simp [h]

@[simp] theorem clear_irqEn (k : Block) : k.clear.irqEn = k.irqEn := rfl

@[simp] theorem writeCtrl_irqEn (cap : Nat) (k : Block) (v : Word) : (k.writeCtrl cap v).irqEn = v.getLsbD 2 := by
  unfold Block.writeCtrl
  split_ifs <;> simp

/-- A word with no command bit only sets IRQ_EN (R69). -/
theorem writeCtrl_of_noCommand {v : Word} (h0 : v.getLsbD 0 = false) (h1 : v.getLsbD 1 = false) (cap : Nat) (k : Block) :
    k.writeCtrl cap v = k.setIrqEn (v.getLsbD 2) := by
  simp only [Block.writeCtrl, h0, h1, Bool.false_eq_true, if_false, ite_self]

/-- A CTRL word acts through bits 0 and 2, and through bit 1 where bit 0 is clear (R69, R114). -/
theorem writeCtrl_congr {v w : Word} (h0 : v.getLsbD 0 = w.getLsbD 0) (h2 : v.getLsbD 2 = w.getLsbD 2)
    (h1 : v.getLsbD 0 = false → v.getLsbD 1 = w.getLsbD 1) (cap : Nat) (k : Block) : k.writeCtrl cap v = k.writeCtrl cap w := by
  unfold Block.writeCtrl
  rw [← h2, ← h0]
  cases hstart : v.getLsbD 0 with
  | true => rfl
  | false => rw [h1 hstart]

/-- Settles O9: IRQ_EN is bit 2 in each case of `writeCtrl`, and irq is computed from it. -/
theorem ctrlWriteSetsInterruptEnable : Obligations.CtrlWriteSetsInterruptEnable := by
  intro s es v hsched
  refine ⟨_, step_of_ctrlWrite hsched, writeCtrl_irqEn .., ?_, fun h0 h1 => ?_⟩
  · rw [irq_eq_decide, setBlk_blk, writeCtrl_irqEn]
  · rw [writeCtrl_of_noCommand h0 h1]
    rfl

/-- Settles O10: two words that agree in the bits read do the same to the block. -/
theorem ctrlWriteIgnoresItsIgnoredBits : Obligations.CtrlWriteIgnoresItsIgnoredBits := by
  intro s t es v w h0 h2 h1 hstep
  rw [step_of_ctrlWrite (setSched_sched ..), writeCtrl_congr h0 h2 h1] at hstep
  rw [step_of_ctrlWrite (setSched_sched ..)]
  exact hstep

/-! ## START -/

/-- The START checks over the values of the registers, as R109, R120 and R121 write them. -/
theorem startCheck_eq (cap : Nat) (k : Block) :
    startCheck cap k =
      if k.width.toNat = 0 then some (.configError, 1#32)
      else if k.height.toNat = 0 then some (.configError, 2#32)
      else if k.bpp.toNat ≠ 1 ∧ k.bpp.toNat ≠ 3 ∧ k.bpp.toNat ≠ 4 then some (.configError, 3#32)
      else if cap < k.width.toNat * k.bpp.toNat then some (.configError, 4#32)
      else if k.inlen.toNat < k.height.toNat * (1 + k.width.toNat * k.bpp.toNat) then some (.truncatedScanlines, 0#32)
      else none := by
  have hzero (w : Word) : w = 0#32 ↔ w.toNat = 0 := BitVec.toNat_inj.symm
  have hbpp : ¬ (k.bpp = 1#3 ∨ k.bpp = 3#3 ∨ k.bpp = 4#3) ↔ k.bpp.toNat ≠ 1 ∧ k.bpp.toNat ≠ 3 ∧ k.bpp.toNat ≠ 4 := by
    simp [← BitVec.toNat_inj]
  exact if_congr (hzero _) rfl (if_congr (hzero _) rfl (if_congr hbpp rfl rfl))

/-- The checks do not read IRQ_EN. -/
theorem startCheck_setIrqEn (cap : Nat) (k : Block) (q : Bool) : startCheck cap (k.setIrqEn q) = startCheck cap k :=
  startCheck_congr ⟨rfl, rfl, rfl, rfl⟩ cap

theorem start_of_check_none {cap : Nat} {k : Block} (h : startCheck cap k = none) :
    k.start cap = k.clearErr.clearSession.setState .filter := by
  simp [Block.start, h]

theorem start_of_check_some {cap : Nat} {k : Block} {c : ErrCode} {i : Word} (h : startCheck cap k = some (c, i)) :
    k.start cap = k.clearErr.clearSession.raiseErr c i := by
  simp [Block.start, h]

/-- Settles O11: START ends as its checks find, and the chain of checks is that of the statement. -/
theorem startFollowsItsChecksInOrder : Obligations.StartFollowsItsChecksInOrder := by
  intro s q g hb
  rw [exec_start_of_not_busy hb]
  have hirqEn := startCheck_setIrqEn s.maxRowBytes s.blk q
  cases hcheck : startCheck s.maxRowBytes s.blk with
  | none =>
    refine ⟨.filter, .noError, 0#32, by rw [start_of_check_none (hirqEn.trans hcheck)]; rfl, ?_⟩
    rw [startCheck_eq] at hcheck
    split_ifs at hcheck ⊢
    exact ⟨rfl, rfl, rfl⟩
  | some found =>
    obtain ⟨c, i⟩ := found
    refine ⟨.error, c, i, by rw [start_of_check_some (hirqEn.trans hcheck)]; rfl, ?_⟩
    rw [startCheck_eq] at hcheck
    split_ifs at hcheck ⊢
    all_goals
      cases hcheck
      exact ⟨rfl, rfl, rfl⟩

/-- Settles O12: a legal configuration is one no check rejects. -/
theorem startOpensASessionOrIsIgnoredWhileBusy : Obligations.StartOpensASessionOrIsIgnoredWhileBusy := by
  intro s q g
  refine ⟨fun hb hlegal => ?_, fun hb => exec_start_of_busy hb q g⟩
  have hcheck := (startCheck_setIrqEn s.maxRowBytes s.blk q).trans (startCheck_none.2 hlegal)
  rw [exec_start_of_not_busy hb, start_of_check_none hcheck]
  rfl

/-! ## CLEAR -/

/-- Settles O13: by the definition of the accepted and of the ignored CLEAR. -/
theorem clearAcknowledgesOrIsIgnoredWhileBusy : Obligations.ClearAcknowledgesOrIsIgnoredWhileBusy := fun _ q g =>
  ⟨fun hb => exec_clear_of_not_busy hb q g, fun hb => exec_clear_of_busy hb q g⟩

/-- In IDLE there is nothing to acknowledge: the error fields are 0 already (R42). -/
theorem clear_of_idle {k : Block} (h : k.ErrorFieldsLegal) (hs : k.state = .idle) : k.clear = k := by
  obtain ⟨hcode, hinfo, hrow⟩ := noError_of_state_ne h (by simp [hs])
  cases k
  cases hs
  cases hcode
  cases hinfo
  cases hrow
  rfl

/-- Settles O14: the accepted CLEAR finds STATE and the error fields as it would leave them. -/
theorem clearInIdleOnlySetsInterruptEnable : Obligations.ClearInIdleOnlySetsInterruptEnable := by
  intro s q g hs hidle
  have hb : s.blk.busy = false := by rw [busy_eq_decide, hidle]; rfl
  have herrors : (s.blk.setIrqEn q).ErrorFieldsLegal := hs.blk.errors
  rw [exec_clear_of_not_busy hb, clear_of_idle herrors hidle]
  rfl

/-! ## The end of a session -/

/-- Settles O45: of the moves of a running session only the rejected filter byte and the last data step end it, and both take the
byte at the head of the input. -/
theorem nothingButResetAbandonsASession : Obligations.NothingButResetAbandonsASession := by
  intro s t hb hr hstep
  cases step_session hb hr hstep with
  | keep q hk => rw [hk]; exact .inl hb
  | latch v _ hk => rw [hk]; exact .inl rfl
  | reject v _ hk hi => rw [hk]; exact .inr ⟨.inr rfl, v, hi⟩
  | data pred x y hs hk hi =>
    rcases blockDataStep_busy_or_done hs hk with hbusy | hdone
    · exact .inl hbusy
    · exact .inr ⟨.inl hdone, x, hi⟩

end Sys2Proof.Machine
end

section
/-!
SUPPORT. How an error is raised, how DONE and ERROR are left, and when irq changes (60_exceptions R122, R126, R128).
-/

namespace Sys2Proof.Machine

/-! ## Raising UnknownFilterType -/

/-- The START checks raise ConfigError or TruncatedScanlines, never the filter step's error (R120, R121). -/
theorem start_errCode_ne_unknownFilterType (cap : Nat) (k : Block) : (k.start cap).errCode ≠ .unknownFilterType := by
  rcases start_cases cap k with ⟨-, heq⟩ | ⟨c, i, hcheck, heq⟩ <;> rw [heq]
  · exact nofun
  · rcases startCheck_some hcheck with ⟨rfl, -⟩ | ⟨rfl, -⟩ <;> exact nofun

/-- UnknownFilterType is raised by the rejection of a filter-type byte and by nothing else (R122). -/
theorem moves_unknownFilterType {s t : State} {e : HostEvent} (hm : Moves s e t) (hne : s.blk.errCode ≠ .unknownFilterType)
    (hcode : t.blk.errCode = .unknownFilterType) :
    ∃ v rest, s.blk.state = .filter ∧ s.host.input = v :: rest ∧ 4 < v.toNat ∧
      t = (s.setInput rest).setBlk (s.blk.rejectFilter v) := by
  cases hm with
  | reject v rest hs _ hi hv => exact ⟨v, rest, hs, hi, hv, rfl⟩
  | hold | latch | lines | read | ignored => exact absurd hcode hne
  | data _ _ _ _ hs _ _ _ hk => exact absurd ((blockDataStep_noError hs hk).1.symm.trans hcode) hne
  | write off v => exact absurd ((writeReg_sameOutcome s (regAt off) v).errCode.symm.trans hcode) hne
  | start v => exact absurd hcode (start_errCode_ne_unknownFilterType _ _)
  | clear | reset => cases hcode

/-- Settles O18: the step is the rejection, which writes neither r nor OUT_COUNT, and in FILTER the invariant relates the two. -/
theorem unknownFilterTypeIsRaisedBetweenRows : Obligations.UnknownFilterTypeIsRaisedBetweenRows := by
  intro s t hs hne hstep hcode
  obtain ⟨e, u, htake, hmove⟩ := step_moves hstep
  obtain ⟨-, hblk, hinput, -, -, houtput, -⟩ := takes_same htake
  obtain ⟨v, rest, hf, hi, hv, rfl⟩ := moves_unknownFilterType hmove (hblk ▸ hne) hcode
  rw [hblk] at hf ⊢
  obtain ⟨-, -, hcount⟩ := hs.blk.at_filter hf
  exact ⟨hf, rfl, ⟨v, hinput.symm.trans hi, hv, rfl⟩, rfl, hcount, houtput⟩

/-! ## What a step does to an outcome and to IRQ_EN -/

/-- A data step does not write IRQ_EN. -/
theorem blockDataStep_irqEn {cap : Nat} {pred : Neighbours → Byte} {k l : Block} {x y : Byte}
    (h : k.dataStep cap pred x = .ok (l, y)) : l.irqEn = k.irqEn := by
  obtain ⟨-, ⟨-, rfl⟩ | ⟨-, p, -, rfl⟩⟩ := blockDataStep_cases h
  all_goals rfl

/-- A write to a register other than CTRL does not write IRQ_EN (R116). -/
theorem writeReg_irqEn_of_ne_ctrl {r : Reg} (hr : r ≠ .ctrl) (k : Block) (v : Word) : (k.writeReg r v).irqEn = k.irqEn := by
  rcases writeReg_cases k r v with ⟨hctrl, -⟩ | ⟨-, -, heq⟩ | ⟨-, -, heq⟩
  · exact absurd hctrl hr
  · rw [heq]
  · obtain ⟨w, h, p, n, hcfg⟩ := writeConfig_cases k r v
    rw [heq, hcfg]

/-- IRQ_EN is written by a reset and by CTRL writes only (R108, R137). -/
theorem moves_irqEn {s t : State} {e : HostEvent} (hm : Moves s e t) (hr : e ≠ .reset) (hc : ∀ v, e ≠ .write 32 0x00 v) :
    t.blk.irqEn = s.blk.irqEn := by
  cases hm with
  | hold | latch | reject | lines | read => rfl
  | data _ _ _ _ _ _ _ _ hk => exact blockDataStep_irqEn hk
  | write off v =>
    refine writeReg_irqEn_of_ne_ctrl (fun hctrl => ?_) s.blk v
    obtain rfl := regAt_ctrl.1 hctrl
    exact hc v rfl
  | ignored v | start v | clear v => exact absurd rfl (hc v)
  | reset => exact absurd rfl hr

/-- What a step does to IRQ_EN and to an outcome, by the host's action: a reset, a CTRL write or any other. -/
inductive OutcomeStep (s t : State) : Prop
  | reset (es : List HostEvent) (hsched : s.host.sched = .reset :: es) (hk : t.blk = Block.reset)
  | ctrl (es : List HostEvent) (v : Word) (hsched : s.host.sched = .write 32 0x00 v :: es)
      (hq : t.blk.irqEn = v.getLsbD 2)
      (hsame : s.blk.busy = false → v.getLsbD 0 = false → v.getLsbD 1 = false → s.SameOutcome t)
  | other (hq : t.blk.irqEn = s.blk.irqEn) (hsame : s.blk.busy = false → s.SameOutcome t)

theorem step_outcomeStep {s t : State} (hstep : step s = .next t) : OutcomeStep s t := by
  obtain ⟨e, u, htake, hmove⟩ := step_moves hstep
  obtain ⟨-, hblk, hinput, -, -, houtput, -⟩ := takes_same htake
  have hsame (he : e.NoCommand) (hb : s.blk.busy = false) : s.SameOutcome t := by
    have hturn : s.SameOutcome u := by constructor <;> simp only [hblk, hinput, houtput]
    exact hturn.trans (moves_sameOutcome hmove (hblk ▸ hb) he)
  by_cases hr : e = .reset
  · subst hr
    obtain ⟨es, hsched⟩ := takes_sched htake nofun
    cases hmove
    exact .reset es hsched rfl
  by_cases hc : ∃ v, e = .write 32 0x00 v
  · obtain ⟨v, rfl⟩ := hc
    obtain ⟨es, hsched⟩ := takes_sched htake nofun
    have hq : t.blk.irqEn = v.getLsbD 2 := by
      cases (step_of_ctrlWrite hsched).symm.trans hstep
      exact writeCtrl_irqEn ..
    refine .ctrl es v hsched hq fun hb h0 h1 => hsame ⟨nofun, ?_⟩ hb
    rintro _ ⟨⟩
    exact ⟨h0, h1⟩
  · have hc (v : Word) : e ≠ .write 32 0x00 v := fun he => hc ⟨v, he⟩
    exact .other ((moves_irqEn hmove hr hc).trans (by rw [hblk])) (hsame ⟨hr, fun v he => absurd he (hc v)⟩)

theorem not_busy_of_done_error {k : Block} (h : k.state = .done ∨ k.state = .error) : k.busy = false := by
  rw [busy_eq_decide]
  rcases h with h | h <;> rw [h] <;> rfl

/-- Outside a session only a reset and a CTRL word with a command bit may replace the outcome (R98, R126). -/
theorem step_sameOutcome_or_command {s t : State} (hb : s.blk.busy = false) (hstep : step s = .next t) :
    s.SameOutcome t ∨
      ∃ es, s.host.sched = .reset :: es ∨
        ∃ v : Word, s.host.sched = .write 32 0x00 v :: es ∧ (v.getLsbD 0 = true ∨ v.getLsbD 1 = true) := by
  cases step_outcomeStep hstep with
  | reset es hsched => exact .inr ⟨es, .inl hsched⟩
  | other _ hsame => exact .inl (hsame hb)
  | ctrl es v hsched _ hsame =>
    by_cases hcommand : v.getLsbD 0 = true ∨ v.getLsbD 1 = true
    · exact .inr ⟨es, .inr ⟨v, hsched, hcommand⟩⟩
    · obtain ⟨h0, h1⟩ := not_or.1 hcommand
      exact .inl (hsame hb (Bool.eq_false_of_not_eq_true h0) (Bool.eq_false_of_not_eq_true h1))

/-- Settles O47: no session runs in DONE and ERROR. -/
theorem onlyCommandsAndResetLeaveAnOutcome : Obligations.OnlyCommandsAndResetLeaveAnOutcome := fun _ _ hended hstep =>
  (step_sameOutcome_or_command (not_busy_of_done_error hended) hstep).imp_left
    fun ⟨hstate, hcode, hinfo, hrow, hinput, houtput⟩ => ⟨hstate, hcode, hinfo, hrow, hinput, houtput⟩

/-! ## The level of irq -/

/-- The level follows from IRQ_EN and STATE. -/
theorem State.SameOutcome.irq_eq {s t : State} (h : s.SameOutcome t) (hq : t.blk.irqEn = s.blk.irqEn) :
    t.blk.irq = s.blk.irq := by
  rw [irq_eq_decide, irq_eq_decide, hq, h.state]

/-- Where irq rises (R128). -/
theorem step_irq_rises {s t : State} (hstep : step s = .next t) (hlow : s.blk.irq = false) (hhigh : t.blk.irq = true) :
    (s.blk.busy = true ∧ s.blk.irqEn = true ∧ (t.blk.state = .done ∨ t.blk.state = .error)) ∨
      ∃ es, ∃ v : Word, s.host.sched = .write 32 0x00 v :: es ∧ v.getLsbD 2 = true := by
  obtain ⟨henabled, hended⟩ := (irq_iff t.blk).1 hhigh
  cases step_outcomeStep hstep with
  | reset es _ hk => simp [hk] at henabled
  | ctrl es v hsched hq => exact .inr ⟨es, v, hsched, hq.symm.trans henabled⟩
  | other hq hsame =>
    have hb : s.blk.busy = true := by
      by_contra hnb
      simpa [hlow, hhigh] using (hsame (Bool.eq_false_of_not_eq_true hnb)).irq_eq hq
    exact .inl ⟨hb, hq.symm.trans henabled, hended⟩

/-- Where irq falls (R128). -/
theorem step_irq_falls {s t : State} (hstep : step s = .next t) (hhigh : s.blk.irq = true) (hlow : t.blk.irq = false) :
    ∃ es, s.host.sched = .reset :: es ∨
      ∃ v : Word, s.host.sched = .write 32 0x00 v :: es ∧
        (v.getLsbD 0 = true ∨ v.getLsbD 1 = true ∨ v.getLsbD 2 = false) := by
  obtain ⟨henabled, hended⟩ := (irq_iff s.blk).1 hhigh
  have hb := not_busy_of_done_error hended
  have hchanged (hsame : s.SameOutcome t) : t.blk.irqEn ≠ s.blk.irqEn := fun hq => by
    simpa [hlow, hhigh] using hsame.irq_eq hq
  cases step_outcomeStep hstep with
  | reset es hsched => exact ⟨es, .inl hsched⟩
  | other hq hsame => exact absurd hq (hchanged (hsame hb))
  | ctrl es v hsched hq hsame =>
    refine ⟨es, .inr ⟨v, hsched, ?_⟩⟩
    by_contra hnot
    obtain ⟨h0, h1, h2⟩ : v.getLsbD 0 = false ∧ v.getLsbD 1 = false ∧ v.getLsbD 2 = true := by simpa using hnot
    exact hchanged (hsame hb h0 h1) (by rw [hq, h2, henabled])

/-- Settles O49: the level by its definition, its changes by the two lemmas above. -/
theorem interruptLevelRisesAndFallsAsStated : Obligations.InterruptLevelRisesAndFallsAsStated := fun _ t hstep =>
  ⟨irq_iff t.blk, statusWord_irq t.blk, step_irq_rises hstep, step_irq_falls hstep⟩

end Sys2Proof.Machine
end

section
/-!
SUPPORT. Reset as a step, and what PREV can tell of an earlier session (10_state R37; 40_operands R77, R82; 70_reset_and_hazards
R137, R152).
-/

namespace Sys2Proof.Machine

/-! ## Reset -/

/-- Settles O2: a reset replaces the block and takes its own action from the plan, nothing else. -/
theorem resetStepRestoresEveryItem : Obligations.ResetStepRestoresEveryItem := fun s es hsched =>
  ⟨(s.setSched es).setBlk Block.reset, step_of_moves (.inr ⟨es, hsched, rfl⟩) .reset,
    rfl, rfl, rfl, rfl, rfl, rfl, rfl, rfl, rfl⟩

/-! ## PREV replaced -/

/-- PREV replaced. -/
def Block.setPrev (k : Block) (p : RowBuf) : Block := { k with prev := p }

/-- The machine with PREV replaced. -/
def State.setPrev (s : State) (p : RowBuf) : State := s.setBlk (s.blk.setPrev p)

/-- `p` holds what PREV holds in every cell that a row after the first reads (R77, R152). -/
def Block.PrevAgrees (k : Block) (p : RowBuf) : Prop :=
  k.busy = true → k.posRow ≠ 0#32 → ∀ j, j < k.rowBytes → cellAt k.prev j = cellAt p j

/-- A machine is alike those that differ from it only in cells of PREV that no row reads. -/
theorem alike_iff {s t : State} : s.Alike t ↔ ∃ p, t = s.setPrev p ∧ s.blk.PrevAgrees p := by
  constructor
  · rintro ⟨hcap, hhost, hblk, hprev⟩
    have ht : s.blk.setPrev t.blk.prev = t.blk :=
      calc s.blk.setPrev t.blk.prev = { s.blk with prev := [] }.setPrev t.blk.prev := rfl
        _ = { t.blk with prev := [] }.setPrev t.blk.prev := by rw [hblk]
        _ = t.blk := rfl
    refine ⟨t.blk.prev, ?_, hprev⟩
    rw [State.setPrev, ht, State.setBlk, hcap, hhost]
  · rintro ⟨p, rfl, hprev⟩
    exact ⟨rfl, rfl, rfl, hprev⟩

theorem prevAgrees_of_not_busy {k : Block} (hb : k.busy = false) (p : RowBuf) : k.PrevAgrees p :=
  fun hbusy => absurd hbusy (by simp [hb])

theorem prevAgrees_of_firstRow {k : Block} (hr : k.posRow = 0#32) (p : RowBuf) : k.PrevAgrees p :=
  fun _ hne => absurd hr hne

/-! ## Operations that do not look at PREV -/

theorem readReg_setPrev (k : Block) (p : RowBuf) (r : Reg) : (k.setPrev p).readReg r = k.readReg r := by
  cases r <;> rfl

theorem writeConfig_setPrev (k : Block) (p : RowBuf) (r : Reg) (v : Word) :
    (k.setPrev p).writeConfig r v = (k.writeConfig r v).setPrev p := by
  cases r <;> rfl

theorem writeReg_setPrev (k : Block) (p : RowBuf) (r : Reg) (v : Word) :
    (k.setPrev p).writeReg r v = (k.writeReg r v).setPrev p := by
  by_cases hr : r = .ctrl
  · subst hr
    rfl
  · cases hb : k.busy with
    | true => rw [writeReg_config_of_busy hb hr, writeReg_config_of_busy (k := k.setPrev p) hb hr]
    | false => rw [writeReg_of_not_busy hb hr, writeReg_of_not_busy (k := k.setPrev p) hb hr, writeConfig_setPrev]

theorem start_setPrev (cap : Nat) (k : Block) (p : RowBuf) : (k.setPrev p).start cap = (k.start cap).setPrev p := by
  have hcheck : startCheck cap (k.setPrev p) = startCheck cap k := startCheck_congr ⟨rfl, rfl, rfl, rfl⟩ cap
  unfold Block.start
  rw [hcheck]
  split <;> rfl

/-- A register write that is no command changes neither the position nor the row length of a running session (R107). -/
theorem writeReg_prevAgrees {k : Block} {p : RowBuf} (hp : k.PrevAgrees p) (r : Reg) (v : Word) :
    (k.writeReg r v).PrevAgrees p := by
  rcases writeReg_cases k r v with ⟨-, heq⟩ | ⟨-, -, heq⟩ | ⟨-, hb, heq⟩ <;> rw [heq]
  · exact hp
  · exact hp
  · exact prevAgrees_of_not_busy (by rw [busy_eq_decide, writeConfig_state, ← busy_eq_decide, hb]) p

/-! ## The data step -/

section dataStep
variable {cap : Nat} {k : Block} {p : RowBuf}

/-- The mux reads PREV at i and at i - BPP, both below ROW_BYTES, and only from row 1 on (R77, R78). -/
theorem muxGives_setPrev {a b c : Byte} (h : k.Inv cap) (hs : k.state = .data) (hp : k.PrevAgrees p)
    (hmux : k.MuxGives a b c) : (k.setPrev p).MuxGives a b c := by
  have hagree (hrow : k.posRow ≠ 0#32) := hp (busy_of_data hs) hrow
  have hbyte := (h.at_data hs).2.1
  obtain ⟨ha, hb, hc⟩ := hmux
  exact ⟨ha, operand_congr (fun hrow => hagree hrow _ hbyte) hb,
    operand_congr (fun hedge => hagree (not_or.1 hedge).2 _ ((Nat.sub_le ..).trans_lt hbyte)) hc⟩

/-- A data step delivers the same byte, and a row commit writes every cell of PREV that the next row reads (R96, R97). -/
theorem blockDataStep_setPrev {pred : Neighbours → Byte} {l : Block} {x y : Byte} (h : k.Inv cap) (hs : k.state = .data)
    (hp : k.PrevAgrees p) (hd : k.dataStep cap pred x = .ok (l, y)) :
    ∃ q, (k.setPrev p).dataStep cap pred x = .ok (l.setPrev q, y) ∧ l.PrevAgrees q := by
  obtain ⟨n, hn, hy, hin, hadv⟩ := blockDataStep_ok.1 hd
  have hn' : neighbours cap (k.setPrev p) = .ok n := neighbours_of_muxGives hin (muxGives_setPrev h hs hp (neighbours_ok hn))
  rcases advance_ok.1 hadv with ⟨hi, rfl⟩ | ⟨hi, row, hcopy, rfl⟩
  · exact ⟨p, blockDataStep_ok.2 ⟨n, hn', hy, hin, advance_ok.2 (.inl ⟨hi, rfl⟩)⟩, hp⟩
  · obtain ⟨hfilled, hcells⟩ := copyCells_ok hcopy
    obtain ⟨q, hq⟩ := copyCells_total p (h.config (busy_of_data hs)).row_fits fun j hj => (hfilled j hj).1
    refine ⟨q, blockDataStep_ok.2 ⟨n, hn', hy, hin, advance_ok.2 (.inr ⟨hi, q, hq, rfl⟩)⟩, fun _ _ j hj => ?_⟩
    calc cellAt row j = cellAt (setCell k.cur k.posByte.toNat y) j := (hcells j).trans (if_pos hj)
      _ = cellAt q j := (((copyCells_ok hq).2 j).trans (if_pos hj)).symm

end dataStep

/-! ## Machines that are alike -/

theorem takes_setPrev {s u : State} {e : HostEvent} (h : Takes s e u) (p : RowBuf) :
    Takes (s.setPrev p) e (u.setPrev p) := by
  rcases h with ⟨hs, he, rfl⟩ | ⟨es, hs, rfl⟩
  · exact .inl ⟨hs, he, rfl⟩
  · exact .inr ⟨es, hs, rfl⟩

/-- Every move of a machine is one of each machine alike it, and they are alike after it. -/
theorem moves_setPrev {s t : State} {e : HostEvent} {p : RowBuf} (hm : Moves s e t) (h : s.Inv) (hp : s.blk.PrevAgrees p) :
    ∃ q, Moves (s.setPrev p) e (t.setPrev q) ∧ t.blk.PrevAgrees q := by
  cases hm with
  | hold hf hd => exact ⟨p, .hold hf hd, hp⟩
  | latch v rest hs ho hi hv => exact ⟨p, .latch v rest hs ho hi hv, fun _ => hp (busy_of_filter hs)⟩
  | reject v rest hs ho hi hv => exact ⟨p, .reject v rest hs ho hi hv, prevAgrees_of_not_busy rfl p⟩
  | data x rest k y hs hr hi hf hk =>
    obtain ⟨q, hk', hq⟩ := blockDataStep_setPrev h.blk hs hp hk
    exact ⟨q, .data x rest _ y hs hr hi hf hk', hq⟩
  | lines o a => exact ⟨p, .lines o a, hp⟩
  | read off h4 hlt =>
    have hmove : Moves (s.setPrev p) _ ((s.setPrev p).giveRead ((s.blk.setPrev p).readReg (regAt off))) := .read off h4 hlt
    rw [readReg_setPrev] at hmove
    exact ⟨p, hmove, hp⟩
  | write off v h4 hlt hc =>
    have hmove : Moves (s.setPrev p) _ ((s.setPrev p).setBlk ((s.blk.setPrev p).writeReg (regAt off) v)) :=
      .write off v h4 hlt hc
    rw [writeReg_setPrev] at hmove
    exact ⟨p, hmove, writeReg_prevAgrees hp _ _⟩
  | ignored v hb hc => exact ⟨p, .ignored v hb hc, hp⟩
  | start v hb h0 =>
    have hmove : Moves (s.setPrev p) _
        ((s.setPrev p).setBlk (((s.blk.setIrqEn (v.getLsbD 2)).setPrev p).start s.maxRowBytes)) := .start v hb h0
    rw [start_setPrev] at hmove
    exact ⟨p, hmove, prevAgrees_of_firstRow (start_posRow _ _) p⟩
  | clear v hb h0 h1 => exact ⟨p, .clear v hb h0 h1, prevAgrees_of_not_busy rfl p⟩
  | reset => exact ⟨[], .reset, prevAgrees_of_not_busy rfl []⟩

/-- One step of two machines that are alike. -/
theorem step_alike {s t s' : State} (h : s.Inv) (halike : s.Alike t) (hstep : step s = .next s') :
    ∃ t', step t = .next t' ∧ s'.Alike t' := by
  obtain ⟨p, rfl, hp⟩ := alike_iff.1 halike
  obtain ⟨e, u, htake, hmove⟩ := step_moves hstep
  obtain ⟨-, hblk, -⟩ := takes_same htake
  obtain ⟨q, hmove', hq⟩ := moves_setPrev hmove (takes_inv htake h) (hblk ▸ hp)
  exact ⟨s'.setPrev q, step_of_moves (takes_setPrev htake p) hmove', alike_iff.2 ⟨q, rfl, hq⟩⟩

/-- A run that completes has a first step that answers, and goes on from there. -/
theorem runSteps_succ_next {k : Nat} {s t : State} (h : runSteps (k + 1) s = .next t) :
    ∃ u, step s = .next u ∧ runSteps k u = .next t := by
  rw [runSteps] at h
  cases hstep : step s with
  | next u => exact ⟨u, rfl, by simpa [hstep] using h⟩
  | fault f => simp [hstep] at h
  | refused r => simp [hstep] at h

/-- Runs of two machines that are alike, the invariant holding all along the first (O39). -/
theorem runSteps_alike {k : Nat} {s t s' : State} (h : s.Inv) (halike : s.Alike t) (hrun : runSteps k s = .next s') :
    ∃ t', runSteps k t = .next t' ∧ s'.Alike t' := by
  induction k generalizing s t with
  | zero =>
    cases hrun
    exact ⟨t, rfl, halike⟩
  | succ k ih =>
    obtain ⟨u, hstep, hrest⟩ := runSteps_succ_next hrun
    obtain ⟨w, hstep', halike'⟩ := step_alike h halike hstep
    obtain ⟨t', hrun', hend⟩ := ih (everyStepKeepsTheInvariant s u h hstep) halike' hrest
    exact ⟨t', (runSteps_succ hstep' k).trans hrun', hend⟩

/-- Settles O57: the second machine runs as the first, and machines that are alike have one host's side. -/
theorem sessionsAreIsolated : Obligations.SessionsAreIsolated := by
  intro k s t s' hs halike hrun
  obtain ⟨t', hrun', hend⟩ := runSteps_alike hs halike hrun
  have ⟨_, hhost, _⟩ := hend
  exact ⟨t', hrun', hend, congrArg HostSide.output hhost, congrArg HostSide.readData hhost⟩

end Sys2Proof.Machine
end

section
/-!
SUPPORT. The round trip of a whole image (95_test_vectors section 1 E1): a forward-filtered image has the shape the reference asks of a
stream, and the reference reconstruction gives the image back; the machine follows the reference (O54).
-/

namespace Sys2Proof.Machine

theorem forwardRowFrom_length (pred : Neighbours → Byte) (bpp : Nat) (above line ys : List Byte) :
    (forwardRowFrom pred bpp above line ys).length = ys.length := by
  induction ys generalizing line with
  | nil => rfl
  | cons y ys ih => rw [forwardRowFrom, List.length_cons, List.length_cons, ih]

theorem forwardImage_length (bpp : Nat) (above : List Byte) (image : List (Byte × List Byte)) :
    (forwardImage bpp above image).length = image.length := by
  induction image generalizing above with
  | nil => rfl
  | cons row rows ih => rw [forwardImage, List.length_cons, List.length_cons, ih]

/-- The filter-type byte of a row is the one chosen for it, and its data bytes are as many as the row's (R62): what a session asks of
its stream is asked of the image. -/
theorem forwardImage_rows {n : Nat} {image : List (Byte × List Byte)} (bpp : Nat) (above : List Byte)
    (himage : ∀ row ∈ image, row.1.toNat ≤ 4 ∧ row.2.length = n) :
    ∀ row ∈ forwardImage bpp above image, row.1.toNat ≤ 4 ∧ row.2.length = n := by
  induction image generalizing above with
  | nil => exact himage
  | cons row rows ih =>
    obtain ⟨⟨hlegal, hlen⟩, hrows⟩ := List.forall_mem_cons.mp himage
    exact List.forall_mem_cons.mpr ⟨⟨hlegal, (forwardRowFrom_length ..).trans hlen⟩, ih row.2 hrows⟩

/-- Each row comes back (O32), so the next one is reconstructed over the row it was filtered against. -/
theorem refImage_forwardImage (bpp : Nat) (above : List Byte) (image : List (Byte × List Byte)) :
    refImage bpp above (forwardImage bpp above image) = image.flatMap (fun row => row.2) := by
  induction image generalizing above with
  | nil => rfl
  | cons row rows ih => rw [forwardImage, refImage, rowRoundTrip, ih, List.flatMap_cons]

/-- Settles O55: the machine delivers the reference image of the forward-filtered stream (O54), which is the image. -/
theorem imageRoundTripOnTheMachine : Obligations.ImageRoundTripOnTheMachine := by
  intro s image rest hinv hfilter hrow hfree hheight hrows hinput
  obtain ⟨t, hrun, hdone, hrest, hout, -⟩ := imageMatchesTheReference s (forwardImage s.blk.bpp.toNat [] image) rest hinv hfilter
    hrow hfree ((forwardImage_length ..).trans hheight) (forwardImage_rows _ _ hrows) hinput
  rw [refImage_forwardImage] at hout
  exact ⟨t, hrun, hdone, hrest, hout⟩

end Sys2Proof.Machine
end
